-- ==== Sys2Proof/Word.lean ====
section
/-!
DEFINITION. The words of the logiclong tag codec (LTC): character codes, operands, the request word and the response
word.
-/

namespace Sys2Proof

/-- A character code, 8 bits (10_state.md R19); also the width of a pair byte (R37). -/
abbrev Byte := BitVec 8

/-- An ENCODE operand, `IDW` = 32 bits (10_state.md R11). -/
abbrev Operand := BitVec 32

/-- The request bus `REQ[124:0]` (30_encoding.md R50, R59). -/
abbrev ReqWord := BitVec 125

/-- The response bus `RSP[93:0]` (30_encoding.md R50, R59). -/
abbrev RspWord := BitVec 94

end Sys2Proof
end

