-- ==== Sys2Proof/Machine/Alphabet.lean ====
section
/-!
DEFINITION. The alphabet table and its inverse (10_state.md R18, 41_decode.md R105).
-/

namespace Sys2Proof.Machine

/-- `ALPHA`, index 0 first: `0 2 8 9 P Y L Q G R J C U V` (10_state.md R18). -/
def alpha : List Byte :=
  [0x30#8, 0x32#8, 0x38#8, 0x39#8, 0x50#8, 0x59#8, 0x4C#8, 0x51#8, 0x47#8, 0x52#8, 0x4A#8, 0x43#8, 0x55#8, 0x56#8]

/-- `ALPHA[d]`. A digit is never above 13 (10_state.md R17), so the code 0 is never read from here. -/
def alphaAt (d : Nat) : Byte := alpha.getD d 0#8

/-- `INDEX(c)`: the `d` with `ALPHA[d] = c`, or absent (41_decode.md R105). -/
def index (c : Byte) : Option Nat := alpha.idxOf? c

end Sys2Proof.Machine
end

