-- ==== Sys2Proof/Syntax.lean ====
section
/-!
DEFINITION. The instructions of LTC: one constructor per row of the opcode table (30_encoding.md R56).
-/

namespace Sys2Proof

/-- An instruction of LTC is one request with its operands. -/
inductive Instr where
  /-- `ENCODE low, high`: the fields `LOW` and `HIGH` of an E-format request (10_state.md R11). -/
  | encode (low high : Operand)
  /-- `DECODE "text"`: the fields `TLEN` and `CH[0 .. 14]` of a D-format request (10_state.md R12). All fifteen
  elements are carried, also those at and above `TLEN`, which the operation ignores (30_encoding.md R57). -/
  | decode (tlen : BitVec 4) (ch : List Byte)
deriving DecidableEq, Repr

/-- The opcode bit `OP`: `false` is 0, ENCODE; `true` is 1, DECODE (30_encoding.md R56). -/
def Instr.op : Instr → Bool
  | .encode _ _ => false
  | .decode _ _ => true

end Sys2Proof
end

