-- ==== Sys2Proof/Config.lean ====
section
/-!
DEFINITION. The fixed parameters of LTC (00_scope.md R4) and the free values an implementation chooses.

A free value is an opaque constant with no body, applied to the number of free values already used (`State.free`):
no proof can say what it is.
-/

namespace Sys2Proof

/-- `RADIX`: the base of the tag digits (00_scope.md R4). -/
def Config.radix : Nat := 14

/-- `NPAIR`: pair steps per component in REPACK (00_scope.md R4). -/
def Config.npair : Nat := 4

/-- `SEQLEN = 2 * NPAIR`: elements of the interleaved sequence (00_scope.md R4). -/
def Config.seqLen : Nat := 8

/-- `LIMBMUL`: multiplier of the fold and of the combine, divisor of the split (00_scope.md R4). -/
def Config.limbMul : Nat := 256

/-- `ODIG`: the most characters ENCODE emits (00_scope.md R4). -/
def Config.odig : Nat := 11

/-- `TAGMAX`: the most characters a DECODE request carries (00_scope.md R4). -/
def Config.tagMax : Nat := 15

/-- Free value: `LAT`, the clock edges from the acceptance of a request to the presentation of its response: finite,
not specified, possibly different for each request, also for two requests at the same moment
(70_reset_and_hazards.md R163; log entry 4). -/
opaque Config.latency : Nat → Instr → Nat

/-- Free value: whether LTC drives `REQ_READY = 0` after an event (10_state.md R23, 30_encoding.md R59; log entry 3). -/
opaque Config.busyAfter : Nat → Bool

/-- Free value: whether LTC, where it is not busy, is combinational after an event (30_encoding.md R59; log entry 3). -/
opaque Config.throughAfter : Nat → Bool

/-- Free value: which of the presented values is taken when the host changed `REQ` before acceptance
(70_reset_and_hazards.md R162; log entry 5). -/
opaque Config.pick : Nat → Nat

end Sys2Proof
end

