-- ==== Sys2Proof/Machine/Operands.lean ====
section
/-!
DEFINITION. The operands of the two operations (30_encoding.md R55) and the digit extraction the stages use
(00_scope.md R5).
-/

namespace Sys2Proof.Machine

/-- `nib(v, k)`: hexadecimal digit `k` of `v`, 0 beyond the most significant digit (00_scope.md R5). -/
def nib (v k : Nat) : Nat := v / 16 ^ k % 16

/-- The tag of a DECODE request as presented, `[CH[0], ..., CH[TLEN-1]]` (30_encoding.md R55, 10_state.md R12). -/
def presentedTag (tlen : BitVec 4) (ch : List Byte) : List Byte := ch.take tlen.toNat

/-- A field of `n` elements filled with the given ones and `0x00` after them (40_encode.md R82). -/
def zeroFill (n : Nat) (cs : List Byte) : List Byte := cs ++ List.replicate (n - cs.length) 0#8

/-- The digits of `t` in base `b` put before `acc`, most significant first; `fuel` bounds the loop, and `t` itself is
always enough. The loop of 40_encode.md R79. -/
def digitLoop (b : Nat) : Nat → Nat → List Nat → List Nat
  | 0, _, acc => acc
  | fuel + 1, t, acc => if t = 0 then acc else digitLoop b fuel (t / b) (t % b :: acc)

/-- The digits of `t` in base `b`, most significant first, no leading zero unless `t = 0`. -/
def digitsOf (b t : Nat) : List Nat := if t = 0 then [0] else digitLoop b t t []

end Sys2Proof.Machine
end

