-- ==== Sys2Proof/Decode.lean ====
section
/-!
DEFINITION. From request words to instructions and back (30_encoding.md R50 to R52, R55 to R57).

`decodeReq` reads the 125-bit bus and refuses nothing, as R57 says. `decodeBytes` reads a request written as bytes,
the lowest bits first (a convention of this model, log entry 13), and rejects by name what is no request word.
-/

namespace Sys2Proof

/-- The bit `REQ[0]`, `OP` (30_encoding.md R50). -/
def reqOp (w : ReqWord) : Bool := w.getLsbD 0

/-- `LOW`, bits 32:1 (30_encoding.md R51). -/
def reqLow (w : ReqWord) : Operand := w.extractLsb' 1 32

/-- `HIGH`, bits 64:33 (30_encoding.md R51). -/
def reqHigh (w : ReqWord) : Operand := w.extractLsb' 33 32

/-- `TLEN`, bits 4:1 (30_encoding.md R52). -/
def reqTlen (w : ReqWord) : BitVec 4 := w.extractLsb' 1 4

/-- `CH[k]`, bits `12+8k : 5+8k` (30_encoding.md R52). -/
def reqCh (w : ReqWord) (k : Nat) : Byte := w.extractLsb' (5 + 8 * k) 8

/-- The instruction a request word is: `OP` alone selects the format, every word is a request, and bits 124:65 of an
E-format request are ignored (30_encoding.md R50, R56, R57). -/
def decodeReq (w : ReqWord) : Instr :=
  if reqOp w then .decode (reqTlen w) ((List.range Config.tagMax).map (reqCh w))
  else .encode (reqLow w) (reqHigh w)

/-- The width of a request in bits, told by `OP` (30_encoding.md R50). -/
def requestBits (op : Bool) : Nat := if op then 125 else 65

/-- Why a list of bytes is no request. -/
inductive DecodeError where
  /-- There is no byte, so there is no `OP` bit. Safe: nothing is run. -/
  | noOpBit
  /-- There are fewer bytes than the format that `OP` selects needs (30_encoding.md R50). Safe: nothing is run. -/
  | truncated
  /-- A bit above bit 124 is set: the bus has no such bit (30_encoding.md R59). Safe: nothing is run. -/
  | widerThanBus
deriving DecidableEq, Repr

/-- The number whose base-256 digits are the given bytes, element 0 least significant: how an array of character codes
lies in a packed word (20_memory.md R35). -/
def packChars : List Byte → Nat
  | [] => 0
  | c :: cs => c.toNat + 256 * packChars cs

/-- The `n` lowest bytes of a number, lowest first. -/
def unpackBytes : Nat → Nat → List Byte
  | 0, _ => []
  | n + 1, v => BitVec.ofNat 8 v :: unpackBytes n (v / 256)

/-- The bytes that a request of the given opcode fills. -/
def requestBytes (op : Bool) : Nat := (requestBits op + 7) / 8

/-- The decoder on bytes, lowest bits first: total, rejecting by name. -/
def decodeBytes : List Byte → Except DecodeError Instr
  | [] => .error .noOpBit
  | b :: bs =>
    if (b :: bs).length < requestBytes (b.getLsbD 0) then .error .truncated
    else if packChars (b :: bs) < 2 ^ 125 then .ok (decodeReq (BitVec.ofNat 125 (packChars (b :: bs))))
    else .error .widerThanBus

/-- The instruction the decoder reads from a request whose bits are `w`; every bit at or above `nbits` is 0, up to the
longest request (16 bytes). -/
def decodeTableWord (nbits w : Nat) : Option Instr :=
  (decodeBytes (unpackBytes (max 16 ((nbits + 7) / 8)) (w % 2 ^ nbits))).toOption

/-- The request word of a well-formed instruction, as the numbers of 30_encoding.md R51 and R52. -/
def encode : Instr → ReqWord
  | .encode low high => BitVec.ofNat 125 (low.toNat * 2 ^ 1 + high.toNat * 2 ^ 33)
  | .decode tlen ch => BitVec.ofNat 125 (1 + tlen.toNat * 2 ^ 1 + packChars (ch.take Config.tagMax) * 2 ^ 5)

/-- The canonical request: the ignored elements `CH[k]`, `k >= TLEN`, are `0x00` (30_encoding.md R52). -/
def Instr.canonical : Instr → Instr
  | .encode low high => .encode low high
  | .decode tlen ch =>
    .decode tlen (ch.take tlen.toNat ++ List.replicate (Config.tagMax - (ch.take tlen.toNat).length) 0#8)

/-- The canonical word of a request: the word with every ignored bit 0 (30_encoding.md R52, R57, R63). -/
def canonicalWord (w : ReqWord) : ReqWord := encode (decodeReq w).canonical

/-- The canonical D-format request of a tag of at most 15 characters (30_encoding.md R52, R60). -/
def tagRequest (tag : List Byte) : Instr :=
  .decode (BitVec.ofNat 4 tag.length) (tag ++ List.replicate (Config.tagMax - tag.length) 0#8)

end Sys2Proof
end

