-- ==== Sys2Proof/Machine/State.lean ====
section
/-!
DEFINITION. What LTC and its interface hold (INVENTORY.md, State): the pins of 30_encoding.md R59, the requests in
flight (70_reset_and_hazards.md R160), and three fields of the model's own (`seen`, `taken`, `free`).
-/

namespace Sys2Proof.Machine

/-- The two error kinds (60_exceptions.md R140). -/
inductive ErrorKind where
  /-- The interleaved sequence does not have exactly 8 elements: ENCODE only, and never in LTC (60_exceptions.md R141,
  R144). -/
  | malformedEncodingInput
  /-- A normalised character is not in the alphabet: DECODE only (60_exceptions.md R142). -/
  | invalidTagCharacter
deriving DecidableEq, Repr

/-- The condition code `STATUS` (10_state.md R20); its numbers are `Status.code` in Flags.lean. The code 3 has no
constructor, since it is never produced (30_encoding.md R57). -/
inductive Status where
  /-- The data fields hold the result. -/
  | ok
  /-- The operation raised an error. -/
  | failed (kind : ErrorKind)
deriving DecidableEq, Repr

/-- A response, before it is packed into a word. -/
inductive Response where
  /-- RE format, the answer to ENCODE: `STATUS`, `OLEN`, `OCH[0 .. 10]` (10_state.md R13). -/
  | re (status : Status) (olen : BitVec 4) (och : List Byte)
  /-- RD format, the answer to DECODE: `STATUS`, `LOW_OUT`, `HIGH_OUT` (10_state.md R14). -/
  | rd (status : Status) (lowOut : BitVec 8) (highOut : BitVec 50)
deriving DecidableEq, Repr

/-- The levels the host drives (30_encoding.md R59). They change between two steps, from outside (log entry 8). -/
structure Pins where
  /-- `RST`: reset, active high. -/
  rst : Bool
  /-- `REQ_VALID`: the host presents a request on `REQ`. -/
  reqValid : Bool
  /-- `REQ`: the request word. -/
  req : ReqWord
  /-- `RSP_READY`: the host can take a response. -/
  rspReady : Bool
deriving DecidableEq, Repr

/-- An accepted request whose response the host has not taken: the response, and the edges until it is presented. -/
structure Pending where
  response : Response
  wait : Nat
deriving DecidableEq, Repr

/-- What LTC does at its request side until the next event (30_encoding.md R59; log entry 3). -/
inductive Port where
  /-- `REQ_READY = 0`. -/
  | busy
  /-- `REQ_READY = 1`. -/
  | ready
  /-- Combinational: `REQ_READY = RSP_READY`, and with no response in flight `RSP_VALID = REQ_VALID` and `RSP` is the
  response to `REQ`. -/
  | through
deriving DecidableEq, Repr

/-- The machine: one LTC and the levels at its interface. `REQ_READY` is computed from `port` (Ops.lean), `RSP_VALID` and
`RSP` from `pending` and, for a response that passes straight through, from the presented request (Output.lean). -/
structure State where
  /-- The host's levels. -/
  pins : Pins
  /-- What decides `REQ_READY` (30_encoding.md R59). -/
  port : Port
  /-- From a reset until the first clock edge after it has passed (70_reset_and_hazards.md R160). -/
  holdOff : Bool
  /-- The model's own: what was presented on `REQ` since `REQ_VALID` rose and is not accepted, latest first
  (70_reset_and_hazards.md R162). -/
  seen : List ReqWord
  /-- The accepted requests whose responses are not taken, oldest first (20_memory.md R39). -/
  pending : List Pending
  /-- The model's own: the responses the host has taken, in order (70_reset_and_hazards.md R164). -/
  taken : List Response
  /-- The model's own: how many free values have been used. -/
  free : Nat
deriving DecidableEq, Repr

/-- The reasons LTC could stop with a fault: none. Every failure is a response, and a run cannot hang inside LTC
(60_exceptions.md R143, R148; 70_reset_and_hazards.md R164; log entry 14). -/
inductive Fault where
deriving DecidableEq, Repr

/-- The reasons an instruction could be refused. -/
inductive Refusal where
  /-- An instruction with no meaning yet: raised by `exec` only, and by no arm of it now. Safe: nothing is answered. -/
  | notModelled (mnemonic : String)
deriving DecidableEq, Repr

/-- LTC right after reset (10_state.md R23, 70_reset_and_hazards.md R160): no request is in flight and the first edge
after the reset is still to come. The host's levels and `REQ_READY` are the model's choice (log entries 1, 2). -/
def State.reset : State where
  pins := ⟨false, false, 0, false⟩
  port := .busy
  holdOff := true
  seen := []
  pending := []
  taken := []
  free := 0

end Sys2Proof.Machine
end

