-- ==== Sys2Proof/Machine/Flags.lean ====
section
/-!
DEFINITION. The one condition code of LTC, `STATUS` (10_state.md R20; 30_encoding.md R58). There are no other flags.
-/

namespace Sys2Proof.Machine

/-- The number of an error kind (60_exceptions.md R140). -/
def ErrorKind.code : ErrorKind → BitVec 2
  | .malformedEncodingInput => 1
  | .invalidTagCharacter => 2

/-- The `STATUS` codes (30_encoding.md R58). -/
def Status.code : Status → BitVec 2
  | .ok => 0
  | .failed k => k.code

/-- The `STATUS` field of a response. -/
def Response.status : Response → Status
  | .re st _ _ => st
  | .rd st _ _ => st

end Sys2Proof.Machine
end

