-- ==== Sys2Proof/Machine/Packing.lean ====
section
/-!
DEFINITION. Responses as words of the response bus (30_encoding.md R50, R53, R54).
-/

namespace Sys2Proof.Machine

/-- The packed response: RE in all 94 bits; RD in bits 59:0 with bits 93:60 zero (30_encoding.md R50, R53, R54). -/
def Response.pack : Response → RspWord
  | .re st olen och =>
    BitVec.ofNat 94 (st.code.toNat + olen.toNat * 2 ^ 2 + packChars (och.take Config.odig) * 2 ^ 6)
  | .rd st lowOut highOut =>
    BitVec.ofNat 94 (st.code.toNat + lowOut.toNat * 2 ^ 2 + highOut.toNat * 2 ^ 10)

end Sys2Proof.Machine
end

