-- ==== Sys2Proof/Machine/Ops.lean ====
section
/-!
DEFINITION. The named operations of the machine: raising an error (60_exceptions.md R143), taking a request in, and
what a clock edge or a reset does at the interface (30_encoding.md R59, 70_reset_and_hazards.md R160, R162).
-/

namespace Sys2Proof.Machine

/-- Taking an error in ENCODE: the failure response, `STATUS` the error's code and every other field 0
(60_exceptions.md R143). Nothing is saved and nothing else changes (R147); there is no return from it (R148). -/
def failRE (k : ErrorKind) : Response := .re (.failed k) 0#4 (List.replicate Config.odig 0#8)

/-- Taking an error in DECODE: the failure response (60_exceptions.md R143). -/
def failRD (k : ErrorKind) : Response := .rd (.failed k) 0#8 0#50

/-- `LAT` of a request accepted in this state: 0 where LTC is combinational, else a free value (30_encoding.md R59,
70_reset_and_hazards.md R163; log entry 4). -/
def State.latencyOf (s : State) (i : Instr) : Nat :=
  match s.port with
  | .busy => Config.latency s.free i
  | .ready => Config.latency s.free i
  | .through => 0

/-- An accepted request joins the end of the queue with its response and its latency (20_memory.md R39,
70_reset_and_hazards.md R163). -/
def State.accept (s : State) (i : Instr) (r : Response) : State :=
  { s with pending := s.pending ++ [⟨r, s.latencyOf i⟩], free := s.free + 1 }

/-- The host changes its levels between two events (log entry 8). -/
def State.drive (s : State) (p : Pins) : State := { s with pins := p }

/-- Every response made so far and not dropped, in order: those taken, then those in flight. -/
def State.answered (s : State) : List Response := s.taken ++ s.pending.map Pending.response

/-- `REQ_READY` (30_encoding.md R59). -/
def State.reqReady (s : State) : Bool :=
  match s.port with
  | .busy => false
  | .ready => true
  | .through => s.pins.rspReady

/-- Whether the host's request is accepted at this edge: `REQ_VALID`, `REQ_READY`, no reset, and not the first edge
after a reset (30_encoding.md R59, 70_reset_and_hazards.md R160). -/
def State.accepts (s : State) : Bool := s.pins.reqValid && s.reqReady && !s.pins.rst && !s.holdOff

/-- Whether LTC is the purely combinational form of 30_encoding.md R59 now: nothing is in flight and the request side is
combinational. -/
def State.combinational (s : State) : Bool := s.pending.isEmpty && s.port == .through

/-- The request word that is accepted: the presented one where it is the only value presented so far or where LTC is
combinational, `RSP = step(REQ)` (30_encoding.md R59), else one of the presented values, which one is free
(70_reset_and_hazards.md R162; log entry 5). -/
def State.acceptedWord (s : State) : ReqWord :=
  match s.seen with
  | [] => s.pins.req
  | w :: ws =>
    if s.combinational then s.pins.req
    else (s.pins.req :: w :: ws).getD (Config.pick s.free % ((w :: ws).length + 1)) s.pins.req

/-- An event at which nothing is accepted: what is presented is remembered, and forgotten when `REQ_VALID = 0`. -/
def State.keepPresenting (s : State) : State :=
  { s with seen := if s.pins.reqValid then s.pins.req :: s.seen else [] }

/-- A response is taken at an edge with `RSP_VALID = 1` and `RSP_READY = 1` (30_encoding.md R59). -/
def State.takeResponse (s : State) : State :=
  match s.pending with
  | [] => s
  | e :: rest =>
    if s.pins.rspReady && e.wait == 0 then { s with pending := rest, taken := s.taken ++ [e.response] } else s

/-- One edge of waiting. -/
def Pending.tick (e : Pending) : Pending := { e with wait := e.wait - 1 }

/-- What LTC does at its request side after an event: free (log entry 3). -/
def nextPort (n : Nat) : Port :=
  if Config.busyAfter n then .busy else if Config.throughAfter n then .through else .ready

/-- Whether the response of a request that is still only presented stands on `RSP`: LTC has to stay combinational, since
`RSP_VALID` and `RSP` hold until the response is taken (30_encoding.md R59). -/
def State.showsThrough (s : State) : Bool :=
  s.combinational && s.pins.reqValid && !s.holdOff

/-- The rest of a clock edge with `RST = 0`, after the acceptance: the oldest due response is taken if the host is
ready, the waits go down, the request side gets its next behaviour, and the hold after a reset ends. -/
def State.finishEdge (s : State) : State :=
  let t := s.takeResponse
  { t with
    pending := t.pending.map Pending.tick
    port := if s.showsThrough then .through else nextPort t.free
    holdOff := false
    free := t.free + 1 }

/-- Reset: every request in flight is dropped and the next edge accepts nothing (70_reset_and_hazards.md R160). -/
def State.resetEdge (s : State) : State :=
  { s with pending := [], port := nextPort s.free, holdOff := true, free := s.free + 1 }

/-- The rest of an edge at which a request was accepted: nothing is presented and unaccepted any more. -/
def State.finishAccepted (s : State) : State := { s.finishEdge with seen := [] }

/-- The rest of the edge after an executed instruction; a stop stays the stop it is. -/
def closeEdge : Host.Outcome State Fault Refusal → Host.Outcome State Fault Refusal
  | .next s => .next s.finishAccepted
  | .fault r => .fault r
  | .refused r => .refused r

end Sys2Proof.Machine
end

