-- ==== Sys2Proof/Machine/TagDecode.lean ====
section
/-!
DEFINITION. DECODE and its stages NORM, LOOKUP, ACCUM, TRUNC, SPLIT (41_decode.md).
-/

namespace Sys2Proof.Machine

/-- `UPPER(c)` (41_decode.md R102). -/
def upper (c : Byte) : Byte := if 0x61 ≤ c.toNat ∧ c.toNat ≤ 0x7A then c - 0x20#8 else c

/-- The signal `UCH`: the uppercased tag (41_decode.md R102). -/
def uch (tag : List Byte) : List Byte := tag.map upper

/-- Strip: every `#` (`0x23`) removed, the order of the others kept (41_decode.md R103). -/
def strip (cs : List Byte) : List Byte := cs.filter fun c => c != 0x23#8

/-- The signal `SCH`; its length is `SLEN` (41_decode.md R103). -/
def sch (tag : List Byte) : List Byte := strip (uch tag)

/-- Letter `O` (`0x4F`) to digit zero (`0x30`), every other code unchanged (41_decode.md R104). -/
def zeroForO (c : Byte) : Byte := if c = 0x4F#8 then 0x30#8 else c

/-- NORM, and the signal `NCH`; its length is `NLEN` (41_decode.md R101, R104). -/
def normalise (tag : List Byte) : List Byte := (sch tag).map zeroForO

/-- LOOKUP, and the signal `IDX`: each alphabet index, or absent (41_decode.md R105). -/
def lookup (nch : List Byte) : List (Option Nat) := nch.map index

/-- ACCUM over the characters from the end of the string to its start: `i` is the position from the end and `total`
the sum so far; a character outside the alphabet raises InvalidTagCharacter (41_decode.md R100, R105, R106). -/
def accumLoop : List Byte → Nat → Nat → Except ErrorKind Nat
  | [], _, total => .ok total
  | c :: cs, i, total =>
    match index c with
    | none => .error .invalidTagCharacter
    | some d => accumLoop cs (i + 1) (total + d * Config.radix ^ i)

/-- ACCUM of a normalised string, from 0 (41_decode.md R106). -/
def accum (nch : List Byte) : Except ErrorKind Nat := accumLoop nch.reverse 0 0

/-- TRUNC: a wire (41_decode.md R108). -/
def trunc (total : Nat) : Nat := total

/-- The signal `DTOTAL`, or the error (10_state.md R15, 41_decode.md R106). -/
def dTotal (tag : List Byte) : Except ErrorKind Nat :=
  match accum (normalise tag) with
  | .error k => .error k
  | .ok t => .ok (trunc t)

/-- The most-significant-first form of ACCUM on indices (41_decode.md R107); not used by DECODE; a statement says it
gives the same value. -/
def horner (idx : List Nat) : Nat := idx.foldl (fun t d => t * Config.radix + d) 0

/-- SPLIT: `LOW_OUT` and `HIGH_OUT` as naturals (41_decode.md R109). -/
def splitTotal (total : Nat) : Nat × Nat := (total % Config.limbMul, total / Config.limbMul)

/-- DECODE on a tag: the pair, or the error (41_decode.md R100). -/
def decodeTag (tag : List Byte) : Except ErrorKind (Nat × Nat) :=
  match dTotal tag with
  | .error k => .error k
  | .ok t => .ok (splitTotal t)

/-- The RD-format success response of a pair (41_decode.md R110); the two fields are wide enough for every request
(41_decode.md R107, R109). -/
def pairResponse (p : Nat × Nat) : Response := .rd .ok (BitVec.ofNat 8 p.1) (BitVec.ofNat 50 p.2)

/-- The response to an outcome of DECODE: an error gives the failure response (60_exceptions.md R143). -/
def rdResponse : Except ErrorKind (Nat × Nat) → Response
  | .error k => failRD k
  | .ok p => pairResponse p

/-- The response to a DECODE request whose tag is given (41_decode.md R100). -/
def decodeResponse (tag : List Byte) : Response := rdResponse (decodeTag tag)

/-- `DECODE "text"` (41_decode.md R100): the request is accepted with its response; elements at and above `TLEN` are
not part of the tag. -/
def execDecode (tlen : BitVec 4) (ch : List Byte) (s : State) : Host.Outcome State Fault Refusal :=
  .next (s.accept (.decode tlen ch) (decodeResponse (presentedTag tlen ch)))

end Sys2Proof.Machine
end

