-- ==== Sys2Proof/Machine/TagEncode.lean ====
section
/-!
DEFINITION. ENCODE and its stages REPACK, INTERLEAVE, FOLD, COMBINE, B14, SUBST (40_encode.md). The stages are
functions on naturals, exact, as 42_arithmetic_and_properties.md R120 and R121 have them.
-/

namespace Sys2Proof.Machine

/-- REPACK in the arithmetic form the spec takes as the definition: byte `j` is `16 * nib(v, 7-2j) + nib(v, 6-2j)`
(40_encode.md R71). -/
def repack (v : Nat) : List Nat :=
  (List.range Config.npair).map fun j => 16 * nib v (7 - 2 * j) + nib v (6 - 2 * j)

/-- One pair step on a list of hexadecimal digits, least significant first: the next two digits as `right` and `left`,
each 0 when the list is exhausted (40_encode.md R71, R72), and what is left of the list. -/
def pairStep (hex : List Nat) : Nat × List Nat :=
  (16 * (hex.tail.headD 0) + hex.headD 0, hex.tail.tail)

/-- The pair steps of 40_encode.md R71 as the source words them, popping digits; each new byte is put in front of
`out`. -/
def pairSteps : Nat → List Nat → List Nat → List Nat
  | 0, _, out => out
  | n + 1, hex, out => pairSteps n (pairStep hex).2 ((pairStep hex).1 :: out)

/-- REPACK by popping digits from the rendering of `v` (40_encode.md R71, the pseudocode); not used by ENCODE, which
follows the arithmetic form; the two are the same function, which a statement says. -/
def repackByPopping (v : Nat) : List Nat := pairSteps Config.npair (digitsOf 16 v).reverse []

/-- INTERLEAVE: `PBL ++ PBH` (40_encode.md R74). -/
def interleave (pbl pbh : List Nat) : List Nat := pbl ++ pbh

/-- FOLD: `acc * 256 + element`, left to right, from 0, nothing masked (40_encode.md R76, R77). -/
def fold (g : List Nat) : Nat := g.foldl (fun acc e => acc * Config.limbMul + e) 0

/-- COMBINE: `LOWLIMB + HIGHLIMB * 256` (40_encode.md R78). -/
def combine (lowLimb highLimb : Nat) : Nat := lowLimb + highLimb * Config.limbMul

/-- B14: the base-14 digits, most significant first (40_encode.md R79). -/
def b14 (t : Nat) : List Nat := digitsOf Config.radix t

/-- SUBST: each digit through the alphabet, order kept (40_encode.md R81). -/
def subst (digits : List Nat) : List Byte := digits.map alphaAt

/-- The signal `SEQ` (10_state.md R15). -/
def seqOf (low high : Nat) : List Nat := interleave (repack low) (repack high)

/-- The signal `LOWLIMB`: the fold of `SEQ[0..3]` (10_state.md R15, 40_encode.md R76). -/
def lowLimb (low high : Nat) : Nat := fold ((seqOf low high).take 4)

/-- The signal `HIGHLIMB`: the fold of `SEQ[4..7]` (10_state.md R15, 40_encode.md R76). -/
def highLimb (low high : Nat) : Nat := fold (((seqOf low high).drop 4).take 4)

/-- The signal `ETOTAL` (10_state.md R15, 40_encode.md R78). -/
def eTotal (low high : Nat) : Nat := combine (lowLimb low high) (highLimb low high)

/-- The signal `DIG`; its length is `NDIG` (10_state.md R15, 40_encode.md R79, R80). -/
def digits (low high : Nat) : List Nat := b14 (eTotal low high)

/-- The length check (40_encode.md R75): MalformedEncodingInput unless the sequence has exactly 8 elements. -/
def lengthCheck (seq : List Nat) : Except ErrorKind Unit :=
  if seq.length = Config.seqLen then .ok () else .error .malformedEncodingInput

/-- ENCODE on naturals: the tag, or the error (40_encode.md R70). -/
def encodeTag (low high : Nat) : Except ErrorKind (List Byte) :=
  match lengthCheck (seqOf low high) with
  | .error k => .error k
  | .ok () => .ok (subst (digits low high))

/-- The RE-format success response of a tag (40_encode.md R82). -/
def tagResponse (tag : List Byte) : Response := .re .ok (BitVec.ofNat 4 tag.length) (zeroFill Config.odig tag)

/-- The response to an outcome of ENCODE: an error gives the failure response (60_exceptions.md R143). -/
def reResponse : Except ErrorKind (List Byte) → Response
  | .error k => failRE k
  | .ok tag => tagResponse tag

/-- The response to an ENCODE request (40_encode.md R70). -/
def encodeResponse (low high : Nat) : Response := reResponse (encodeTag low high)

/-- `ENCODE low, high` (40_encode.md R70): the request is accepted with its response. -/
def execEncode (low high : Operand) (s : State) : Host.Outcome State Fault Refusal :=
  .next (s.accept (.encode low high) (encodeResponse low.toNat high.toNat))

end Sys2Proof.Machine
end

