-- ==== Sys2Proof/Machine/Dispatch.lean ====
section
/-!
DEFINITION. The meaning of every instruction, one arm per constructor.
-/

namespace Sys2Proof.Machine

def exec (i : Instr) (s : State) : Host.Outcome State Fault Refusal :=
  match i with
  | .encode low high => Sys2Proof.Machine.execEncode low high s
  | .decode tlen ch => Sys2Proof.Machine.execDecode tlen ch s

end Sys2Proof.Machine
end

