-- ==== Sys2Proof/Machine/Step.lean ====
section
/-!
DEFINITION. One event at the interface: a clock edge, or the reset line being high (log entry 7).
-/

namespace Sys2Proof.Machine

/-- One event: a reset drops what is in flight; at an edge that accepts, the accepted request is executed and the edge
is finished; at any other edge only the interface moves (30_encoding.md R59, 70_reset_and_hazards.md R160). -/
def step (s : State) : Host.Outcome State Fault Refusal :=
  if s.pins.rst then .next s.keepPresenting.resetEdge
  else if s.accepts then closeEdge (exec (decodeReq s.acceptedWord) s)
  else .next s.keepPresenting.finishEdge

/-- The state with a request presented and about to be accepted: the word on `REQ` with `REQ_VALID = 1`, LTC ready, no
reset and no edge held off, and nothing else presented before it (log entry 12). -/
def State.withFetchWord (s : State) (nbits w : Nat) : State :=
  { s with
    pins := { s.pins with rst := false, reqValid := true, req := BitVec.ofNat 125 (w % 2 ^ nbits) }
    port := .ready
    holdOff := false
    seen := [] }

end Sys2Proof.Machine
end

