-- ==== Sys2Proof/Machine/Assembler.lean ====
section
/-!
DEFINITION. The assembler syntax, the pseudo-instruction, the written responses and the disassembly (30_encoding.md
R60 to R63). Text is a list of characters. What the rules leave open about blanks, line ends, a `;` inside a text
and the case of hexadecimal digits is this model's convention (log entry 18).
-/

namespace Sys2Proof.Machine

/-- Source text. -/
abbrev Text := List Char

/-- Why the assembler refuses a line (30_encoding.md R60, R61). -/
inductive AsmError where
  /-- The line begins with no mnemonic of R60 or R62. -/
  | unknownMnemonic
  /-- The operands do not have the form of R60. -/
  | badOperands
  /-- A number with a minus sign (R61). -/
  | negativeNumber
  /-- A number above 4294967295 (R61). -/
  | numberOutOfRange
  /-- A character or an escape that a text may not hold, or no closing quote (R61). -/
  | badText
  /-- A text of more than 15 characters (R61). -/
  | textTooLong
deriving DecidableEq, Repr

/-- A blank inside a line. -/
def isBlank (c : Char) : Bool := c == ' ' || c == '\t' || c == '\r'

/-- The line from its first character that is not blank. -/
def skipBlanks (t : Text) : Text := t.dropWhile isBlank

/-- Only blanks and a comment are left (R60: a `;` starts a comment). -/
def atEnd (t : Text) : Bool :=
  match skipBlanks t with
  | [] => true
  | c :: _ => c == ';'

/-- The value of a decimal digit. -/
def decVal (c : Char) : Option Nat :=
  if 48 ≤ c.toNat ∧ c.toNat ≤ 57 then some (c.toNat - 48) else none

/-- The value of a hexadecimal digit, in either case. -/
def hexVal (c : Char) : Option Nat :=
  if 48 ≤ c.toNat ∧ c.toNat ≤ 57 then some (c.toNat - 48)
  else if 65 ≤ c.toNat ∧ c.toNat ≤ 70 then some (c.toNat - 55)
  else if 97 ≤ c.toNat ∧ c.toNat ≤ 102 then some (c.toNat - 87)
  else none

/-- The number spelt by the digits at the front of a text, continuing from `acc`, and the rest of the text. -/
def readDigits (b : Nat) (val : Char → Option Nat) : Text → Nat → Nat × Text
  | [], acc => (acc, [])
  | c :: cs, acc =>
    match val c with
    | none => (acc, c :: cs)
    | some d => readDigits b val cs (acc * b + d)

/-- A number of at least one digit. -/
def readNat (b : Nat) (val : Char → Option Nat) (t : Text) : Except AsmError (Nat × Text) :=
  match t with
  | [] => .error .badOperands
  | c :: cs =>
    match val c with
    | none => .error .badOperands
    | some _ => .ok (readDigits b val (c :: cs) 0)

/-- A numeral: decimal, or hexadecimal with `0x`; a minus sign is refused (R61). -/
def readNumeral : Text → Except AsmError (Nat × Text)
  | '-' :: _ => .error .negativeNumber
  | '0' :: 'x' :: cs => readNat 16 hexVal cs
  | cs => readNat 10 decVal cs

/-- `<low>` or `<high>`: a numeral in `0 .. 4294967295` (R61). -/
def readNumber (t : Text) : Except AsmError (Operand × Text) :=
  match readNumeral t with
  | .error e => .error e
  | .ok (n, rest) => if n < 2 ^ 32 then .ok (BitVec.ofNat 32 n, rest) else .error .numberOutOfRange

/-- A character a text holds as itself: printable ASCII but not `"` and not the backslash (R61, R63). -/
def plainCode (n : Nat) : Bool := decide (0x20 ≤ n ∧ n ≤ 0x7E ∧ n ≠ 0x22 ∧ n ≠ 0x5C)

/-- Put a character code in front of a text that was read. -/
def consCode (n : Nat) : Except AsmError (List Byte × Text) → Except AsmError (List Byte × Text)
  | .error e => .error e
  | .ok (cs, rest) => .ok (BitVec.ofNat 8 n :: cs, rest)

/-- The codes of a text after its opening quote, up to the closing one, and what follows it (R61). -/
def readText : Text → Except AsmError (List Byte × Text)
  | [] => .error .badText
  | '"' :: rest => .ok ([], rest)
  | '\\' :: '"' :: rest => consCode 0x22 (readText rest)
  | '\\' :: '\\' :: rest => consCode 0x5C (readText rest)
  | '\\' :: 'x' :: h :: l :: rest =>
    match hexVal h, hexVal l with
    | some a, some b => consCode (16 * a + b) (readText rest)
    | _, _ => .error .badText
  | c :: rest => if plainCode c.toNat then consCode c.toNat (readText rest) else .error .badText

/-- The end of a line after its operands. -/
def endLine (p : List Instr) (t : Text) : Except AsmError (List Instr) :=
  if atEnd t then .ok p else .error .badOperands

/-- The operands of `ENCODE` after the mnemonic: a blank, a number, a comma, a number (R60). -/
def encodeOperands (t : Text) : Except AsmError (List Instr) :=
  match readNumber (skipBlanks t) with
  | .error e => .error e
  | .ok (low, rest) =>
    match skipBlanks rest with
    | ',' :: rest' =>
      match readNumber (skipBlanks rest') with
      | .error e => .error e
      | .ok (high, rest'') => endLine [.encode low high] rest''
    | _ => .error .badOperands

/-- The operand of `DECODE` after the mnemonic: a blank and a quoted text (R60). -/
def decodeOperands (t : Text) : Except AsmError (List Instr) :=
  match skipBlanks t with
  | '"' :: rest =>
    match readText rest with
    | .error e => .error e
    | .ok (tag, rest') => if tag.length ≤ Config.tagMax then endLine [tagRequest tag] rest' else .error .textTooLong
  | _ => .error .badOperands

/-- The codes of `#QL82UUGGG` (30_encoding.md R62). -/
def selfTestTag : List Byte := [0x23#8, 0x51#8, 0x4C#8, 0x38#8, 0x32#8, 0x55#8, 0x55#8, 0x47#8, 0x47#8, 0x47#8]

/-- The expansion of `SELFTEST` (30_encoding.md R62). -/
def selfTest : List Instr := [tagRequest selfTestTag, .encode 9 3130736]

/-- A letter of a mnemonic. -/
def isLetter (c : Char) : Bool :=
  decide ((65 ≤ c.toNat ∧ c.toNat ≤ 90) ∨ (97 ≤ c.toNat ∧ c.toNat ≤ 122))

/-- A letter as a capital: mnemonics are case-insensitive (R60). -/
def capital (c : Char) : Char := if 97 ≤ c.toNat ∧ c.toNat ≤ 122 then Char.ofNat (c.toNat - 32) else c

/-- The mnemonic of an operation with operands is followed by a blank. -/
def afterMnemonic (t : Text) (operands : Text → Except AsmError (List Instr)) : Except AsmError (List Instr) :=
  match t with
  | [] => .error .badOperands
  | c :: cs => if isBlank c then operands cs else .error .badOperands

/-- One line: nothing, a comment, `ENCODE`, `DECODE` or `SELFTEST` (R60, R62). That `SELFTEST` is read in any case, as R60 says
of the other two, is a DESIGN CHOICE (log entry 18). -/
def assembleLine (line : Text) : Except AsmError (List Instr) :=
  let t := skipBlanks line
  if atEnd t then .ok []
  else
    let m := (t.takeWhile isLetter).map capital
    let rest := t.dropWhile isLetter
    if m = "ENCODE".toList then afterMnemonic rest encodeOperands
    else if m = "DECODE".toList then afterMnemonic rest decodeOperands
    else if m = "SELFTEST".toList then endLine selfTest rest
    else .error .unknownMnemonic

/-- The lines of a text. -/
def splitLines : Text → List Text
  | [] => [[]]
  | c :: cs =>
    if c = '\n' then [] :: splitLines cs
    else
      match splitLines cs with
      | [] => [[c]]
      | l :: ls => (c :: l) :: ls

/-- The requests of a list of lines, in order. 30_encoding.md R61 says that the assembler refuses a number or a text; that the
first refused line refuses the whole program is a DESIGN CHOICE (log entry 18). -/
def assembleLines : List Text → Except AsmError (List Instr)
  | [] => .ok []
  | l :: ls =>
    match assembleLine l with
    | .error e => .error e
    | .ok p =>
      match assembleLines ls with
      | .error e => .error e
      | .ok q => .ok (p ++ q)

/-- A program: a list of lines (30_encoding.md R60). -/
def assemble (source : Text) : Except AsmError (List Instr) := assembleLines (splitLines source)

/-- The decimal rendering of a number. -/
def decimal (n : Nat) : Text := (digitsOf 10 n).map fun d => Char.ofNat (48 + d)

/-- A hexadecimal digit, a capital letter above 9. -/
def hexDigit (d : Nat) : Char := if d < 10 then Char.ofNat (48 + d) else Char.ofNat (55 + d)

/-- A code as it is printed: itself, or an escape of R61 (30_encoding.md R63). Which of the escapes of a quote or a backslash is
printed, the short one, is a DESIGN CHOICE (log entry 18). -/
def printCode (c : Byte) : Text :=
  if c.toNat = 0x22 then ['\\', '"']
  else if c.toNat = 0x5C then ['\\', '\\']
  else if plainCode c.toNat then [Char.ofNat c.toNat]
  else ['\\', 'x', hexDigit (c.toNat / 16), hexDigit (c.toNat % 16)]

/-- A text in quotes. -/
def quoted (cs : List Byte) : Text := '"' :: cs.flatMap printCode ++ ['"']

/-- Disassembly (30_encoding.md R63): operands in decimal; a tag as its characters below `TLEN`, the ignored ones not
printed. -/
def disassemble : Instr → Text
  | .encode low high => "ENCODE ".toList ++ decimal low.toNat ++ ", ".toList ++ decimal high.toNat
  | .decode tlen ch => "DECODE ".toList ++ quoted (presentedTag tlen ch)

/-- The disassembly of a request word. -/
def disassembleWord (w : ReqWord) : Text := disassemble (decodeReq w)

/-- The name of an error kind (30_encoding.md R58). -/
def ErrorKind.name : ErrorKind → Text
  | .malformedEncodingInput => "MalformedEncodingInput".toList
  | .invalidTagCharacter => "InvalidTagCharacter".toList

/-- A response as it is written (30_encoding.md R61). -/
def Response.written : Response → Text
  | .re .ok olen och => "OK ".toList ++ quoted (och.take olen.toNat)
  | .rd .ok lowOut highOut =>
    "OK (".toList ++ decimal lowOut.toNat ++ ", ".toList ++ decimal highOut.toNat ++ ")".toList
  | .re (.failed k) _ _ => "ERR ".toList ++ k.name
  | .rd (.failed k) _ _ => "ERR ".toList ++ k.name

end Sys2Proof.Machine
end

