-- ==== Sys2Proof/Machine/Respond.lean ====
section
/-!
DEFINITION. LTC as the function of 00_scope.md R3 from requests to responses, on instructions and on the packed words.
-/

namespace Sys2Proof.Machine

/-- The response to a request: the function `step : Request -> Response` of 00_scope.md R3. -/
def respond : Instr → Response
  | .encode low high => encodeResponse low.toNat high.toNat
  | .decode tlen ch => decodeResponse (presentedTag tlen ch)

/-- The same function on the words of the two buses (30_encoding.md R59: `RSP = step(REQ)`). -/
def respondWord (w : ReqWord) : RspWord := (respond (decodeReq w)).pack

/-- The result of a program, a list of requests presented in order: the list of responses in the same order
(30_encoding.md R60, 70_reset_and_hazards.md R164). -/
def programResult (p : List Instr) : List Response := p.map respond

end Sys2Proof.Machine
end

