-- ==== Sys2Proof/Machine/Output.lean ====
section
/-!
DEFINITION. The response side of the interface, `RSP_VALID` and `RSP` (30_encoding.md R59, 10_state.md R23).
-/

namespace Sys2Proof.Machine

/-- Whether a presented request is one LTC accepts or would accept, were the host ready to take its response. -/
def State.offered (s : State) : Bool := s.pins.reqValid && !s.pins.rst && !s.holdOff && s.port != .busy

/-- The response that passes straight through: that of a presented request with `LAT = 0`, accepted at this edge or, where
LTC is combinational, waiting for `RSP_READY` (30_encoding.md R59; log entry 9). -/
def State.straight (s : State) : Option Response :=
  if s.offered && s.latencyOf (decodeReq s.acceptedWord) == 0 then some (respond (decodeReq s.acceptedWord)) else none

/-- The response LTC presents: the oldest in flight if it is due, or with none in flight the one that passes straight
through; none while `RST = 1` (30_encoding.md R59, 70_reset_and_hazards.md R160). -/
def State.presented (s : State) : Option Response :=
  if s.pins.rst then none
  else
    match s.pending with
    | [] => s.straight
    | e :: _ => if e.wait == 0 then some e.response else none

/-- `RSP_VALID` (30_encoding.md R59). -/
def State.rspValid (s : State) : Bool := s.presented.isSome

/-- `RSP`: the packed response while `RSP_VALID = 1`, no value otherwise (10_state.md R23; log entry 15). -/
def State.rsp (s : State) : Option RspWord := s.presented.map Response.pack

end Sys2Proof.Machine
end

