-- ==== Sys2Proof/Safety.lean ====
section
/-!
DEFINITION. What claims speak of: the legal responses, the invariant of the machine, and runs in which the
host changes its pins before every event.
-/

namespace Sys2Proof.Machine

/-- A tag in the one spelling ENCODE emits: alphabet characters only, no leading `0` unless it is the tag `0`, not empty
(40_encode.md R82, 42_arithmetic_and_properties.md R132). -/
def canonicalTag (tag : List Byte) : Bool :=
  !tag.isEmpty && tag.all (fun c => alpha.contains c) && (tag.headD 0#8 != 0x30#8 || tag.length == 1)

/-- A legal response: none of those that 30_encoding.md R57 and 93_implementation_defined.md I9 say are never produced.
ENCODE succeeds with a canonical tag of at most 11 characters and zero fill; DECODE gives a pair in range, or
InvalidTagCharacter with zeros. Which totals an ENCODE tag spells is not part of it (DigitCountOfTheTotal bounds them). -/
def Response.legal : Response → Bool
  | .re .ok olen och =>
    och.length == Config.odig && olen.toNat ≤ Config.odig && canonicalTag (och.take olen.toNat) &&
      (och.drop olen.toNat).all (fun c => c == 0)
  | .re (.failed _) _ _ => false
  | .rd .ok _ highOut => highOut.toNat ≤ 607687873272703
  | .rd (.failed k) lowOut highOut => k == .invalidTagCharacter && lowOut == 0#8 && highOut == 0#50

/-- `t` is `s` after a request got the response `r`: one more entry at the end of the queue, with some latency, and
every pin, output level, remembered word and taken response as before (the model's counter of free values moves on).
-/
def State.Answers (s t : State) (r : Response) : Prop :=
  (∃ wait, t.pending = s.pending ++ [⟨r, wait⟩]) ∧ t.pins = s.pins ∧ t.port = s.port ∧
    t.holdOff = s.holdOff ∧ t.seen = s.seen ∧ t.taken = s.taken

/-- The canonical spelling of a normalised tag: without its leading `0` characters, or `0` if nothing is left
(42_arithmetic_and_properties.md R132). -/
def canonicalSpelling (nch : List Byte) : List Byte :=
  match nch.dropWhile fun c => c == 0x30#8 with
  | [] => [0x30#8]
  | c :: cs => c :: cs

/-- The 27 codes DECODE accepts in a tag as presented: the alphabet, the ten small letters of it, `O`, `o` and `#`
(41_decode.md R105). -/
def acceptedCodes : List Byte :=
  alpha ++ [0x63#8, 0x67#8, 0x6A#8, 0x6C#8, 0x70#8, 0x71#8, 0x72#8, 0x75#8, 0x76#8, 0x79#8] ++ [0x4F#8, 0x6F#8, 0x23#8]

/-- The invariant: every response in flight and every response taken is legal. -/
def State.Inv (s : State) : Prop := ∀ r ∈ s.answered, r.legal = true

/-- One event with the given levels at the pins. -/
def clock (p : Pins) (s : State) : Host.Outcome State Fault Refusal := step (s.drive p)

/-- A run: one event for each list element, the host driving those levels. -/
def runPins : List Pins → State → Host.Outcome State Fault Refusal
  | [], s => .next s
  | p :: ps, s =>
    match clock p s with
    | .next t => runPins ps t
    | .fault r => .fault r
    | .refused r => .refused r

/-- The request accepted at one event, if any. -/
def acceptedNow (s : State) : List Instr := if s.accepts then [decodeReq s.acceptedWord] else []

/-- The requests accepted along a run, in order. -/
def acceptedAlong : List Pins → State → List Instr
  | [], _ => []
  | p :: ps, s =>
    acceptedNow (s.drive p) ++
      match clock p s with
      | .next t => acceptedAlong ps t
      | .fault _ => []
      | .refused _ => []

/-- The edges after which every request now in flight has been answered, if the host is ready at each: one for each
response and one for each edge of waiting. -/
def State.edgesOwed (s : State) : Nat := (s.pending.map fun e => e.wait + 1).sum

end Sys2Proof.Machine
end

