-- ==== Sys2Proof/WellFormed.lean ====
section
/-!
DEFINITION. Which terms of `Instr` are requests. Every E-format term is one; a D-format term is one when it carries
exactly the fifteen character fields of the format (30_encoding.md R52). The number of characters of the tag needs
no check: every value of the 4-bit `TLEN` is legal (10_state.md R12).
-/

namespace Sys2Proof

/-- The check on an instruction: a DECODE carries exactly `TAGMAX` = 15 character fields. -/
def Instr.wf : Instr → Bool
  | .encode _ _ => true
  | .decode _ ch => ch.length == Config.tagMax

/-- A well-formed instruction: one that a request word can carry. -/
abbrev Instr.WellFormed (i : Instr) : Prop := i.wf = true

end Sys2Proof
end

