-- ==== Sys2Proof/Certificates/Slice0/Obligations.lean ====
section
/-!
DEFINITION. The statements about the model, for the provers.
-/

open Sys2Proof Sys2Proof.Machine

/-! ### Encoding -/

/-- Four request words written out from the tables of 30_encoding.md R51 and R52. -/
def Obligations.WrittenWordsDecode : Prop :=
  decodeReq 0x0005F8AE000000012 = .encode 9 3130736 ∧
  decodeReq 0x13579BDE02468ACF0 = .encode 0x12345678 0x9ABCDEF0 ∧
  decodeReq 0x42643 = .decode 1 ([0x32#8, 0x21#8] ++ List.replicate 13 0#8) ∧
  decodeReq 0x8E8E8EAAAA647098A2475 =
    .decode 10 ([0x23#8, 0x51#8, 0x4C#8, 0x38#8, 0x32#8, 0x55#8, 0x55#8, 0x47#8, 0x47#8, 0x47#8] ++ List.replicate 5 0#8)

/-- Decoding the word of a well-formed instruction gives it back, every operand at every value. -/
def Obligations.DecodeOfEncodeIsTheInstruction : Prop :=
  ∀ i : Instr, i.WellFormed → decodeReq (encode i) = i

/-- Encoding the instruction a word decodes to gives the word back, but for bits 124:65 of an E-format request, which
become 0. -/
def Obligations.EncodeOfDecodeIsTheWord : Prop :=
  ∀ w : ReqWord,
    (reqOp w = true → encode (decodeReq w) = w) ∧
    (reqOp w = false → encode (decodeReq w) = (w.extractLsb' 0 65).setWidth 125)

/-- 30_encoding.md R51: the E-format word, as a number and bit by bit. -/
def Obligations.EFormatWordLayout : Prop :=
  ∀ low high : Operand,
    (encode (.encode low high)).toNat = 0 + low.toNat * 2 ^ 1 + high.toNat * 2 ^ 33 ∧
    (encode (.encode low high)).getLsbD 0 = false ∧
    (∀ k < 32, (encode (.encode low high)).getLsbD (1 + k) = low.getLsbD k) ∧
    (∀ k < 32, (encode (.encode low high)).getLsbD (33 + k) = high.getLsbD k)

/-- 30_encoding.md R52: the D-format word, as a number and field by field; the canonical request of a tag has zeros
above it, and what stands there has no effect. -/
def Obligations.DFormatWordLayout : Prop :=
  (∀ (tlen : BitVec 4) (ch : List Byte), (Instr.decode tlen ch).WellFormed →
    (encode (.decode tlen ch)).toNat =
      1 + tlen.toNat * 2 ^ 1 + ((List.range 15).map fun k => (ch.getD k 0#8).toNat * 2 ^ (5 + 8 * k)).sum ∧
    (encode (.decode tlen ch)).getLsbD 0 = true ∧
    (encode (.decode tlen ch)).extractLsb' 1 4 = tlen ∧
    ∀ k < 15, (encode (.decode tlen ch)).extractLsb' (5 + 8 * k) 8 = ch.getD k 0#8) ∧
  (∀ tag : List Byte, tag.length ≤ 15 →
    ∃ tlen ch, tagRequest tag = .decode tlen ch ∧ (Instr.decode tlen ch).WellFormed ∧ tlen.toNat = tag.length ∧
      ch.take tlen.toNat = tag ∧ ∀ k, tlen.toNat ≤ k → ch.getD k 0#8 = 0) ∧
  (∀ (tlen : BitVec 4) (ch ch' : List Byte), ch.take tlen.toNat = ch'.take tlen.toNat →
    respond (.decode tlen ch) = respond (.decode tlen ch'))

/-- No word is illegal: `OP` alone tells the operation, and the instruction is well formed. -/
def Obligations.EveryWordIsAWellFormedRequest : Prop :=
  ∀ w : ReqWord, (decodeReq w).WellFormed ∧
    (w.getLsbD 0 = false → ∃ low high, decodeReq w = .encode low high) ∧
    (w.getLsbD 0 = true → ∃ tlen ch, decodeReq w = .decode tlen ch)

/-- Two requests that differ in ignored bits only get the same response word, and a request gets the response of its
canonical word. -/
def Obligations.IgnoredRequestBitsHaveNoEffect : Prop :=
  (∀ w w' : ReqWord, reqOp w = false → w.extractLsb' 0 65 = w'.extractLsb' 0 65 → respondWord w = respondWord w') ∧
  (∀ w w' : ReqWord, reqOp w = true → reqOp w' = true → reqTlen w = reqTlen w' →
    (∀ k < (reqTlen w).toNat, reqCh w k = reqCh w' k) → respondWord w = respondWord w') ∧
  (∀ w : ReqWord, respondWord (canonicalWord w) = respondWord w)

/-- 30_encoding.md R53: the RE-format word of every ENCODE response, and of the failure responses. -/
def Obligations.REFormatWordLayout : Prop :=
  (∀ low high : Operand, ∃ tag olen och, encodeTag low.toNat high.toNat = .ok tag ∧
    respond (.encode low high) = .re .ok olen och ∧ och.length = 11 ∧ olen.toNat = tag.length ∧
    och.take olen.toNat = tag ∧
    1 ≤ olen.toNat ∧ olen.toNat ≤ 11 ∧ (∀ k, olen.toNat ≤ k → och.getD k 0#8 = 0) ∧
    (respond (.encode low high)).pack.toNat =
      Status.ok.code.toNat + olen.toNat * 2 ^ 2 +
        ((List.range 11).map fun k => (och.getD k 0#8).toNat * 2 ^ (6 + 8 * k)).sum ∧
    (respond (.encode low high)).pack.extractLsb' 0 2 = Status.ok.code ∧
    (respond (.encode low high)).pack.extractLsb' 2 4 = olen ∧
    ∀ k < 11, (respond (.encode low high)).pack.extractLsb' (6 + 8 * k) 8 = och.getD k 0#8) ∧
  (∀ k : ErrorKind,
    (failRE k).pack.toNat = k.code.toNat ∧ (failRE k).pack.extractLsb' 0 2 = (Status.failed k).code ∧
    (failRE k).pack.extractLsb' 2 4 = 0#4 ∧ ∀ j < 11, (failRE k).pack.extractLsb' (6 + 8 * j) 8 = 0#8)

/-- 30_encoding.md R54: the RD-format word of every DECODE response, on the 94-bit bus with bits 93:60 zero (R50). -/
def Obligations.RDFormatWordLayout : Prop :=
  ∀ (tlen : BitVec 4) (ch : List Byte), ∃ st lowOut highOut,
    respond (.decode tlen ch) = .rd st lowOut highOut ∧
    (st ≠ .ok → lowOut = 0 ∧ highOut = 0) ∧
    (∀ t, dTotal (ch.take tlen.toNat) = .ok t → st = .ok ∧ lowOut.toNat = t % 256 ∧ highOut.toNat = t / 256) ∧
    (respond (.decode tlen ch)).pack.toNat = st.code.toNat + lowOut.toNat * 2 ^ 2 + highOut.toNat * 2 ^ 10 ∧
    (respond (.decode tlen ch)).pack.extractLsb' 0 2 = st.code ∧
    (respond (.decode tlen ch)).pack.extractLsb' 2 8 = lowOut ∧
    (respond (.decode tlen ch)).pack.extractLsb' 10 50 = highOut ∧
    (respond (.decode tlen ch)).pack.extractLsb' 60 34 = 0

/-- 30_encoding.md R58: the status codes, which operation produces each, and what each means. -/
def Obligations.StatusCodesAndTheirMeaning : Prop :=
  Status.ok.code = 0b00 ∧ (Status.failed .malformedEncodingInput).code = 0b01 ∧
  (Status.failed .invalidTagCharacter).code = 0b10 ∧
  (∀ low high : Operand,
    ((respond (.encode low high)).status = .failed .malformedEncodingInput ↔
      (seqOf low.toNat high.toNat).length ≠ 8) ∧
    ((respond (.encode low high)).status = .ok ↔ (seqOf low.toNat high.toNat).length = 8)) ∧
  (∀ (tlen : BitVec 4) (ch : List Byte),
    ((respond (.decode tlen ch)).status = .failed .invalidTagCharacter ↔
      ∃ c ∈ normalise (ch.take tlen.toNat), c ∉ alpha) ∧
    ((respond (.decode tlen ch)).status = .ok ↔ ∀ c ∈ normalise (ch.take tlen.toNat), c ∈ alpha)) ∧
  (∀ i : Instr, (respond i).status.code ≠ 0b11)

/-- 60_exceptions.md R143: an operation that raises an error answers with the error's code and zeros in every other
field, in the same queue as a success; the failure responses as packed words. -/
def Obligations.FailureResponseCarriesTheCodeAndZeros : Prop :=
  (∀ k, reResponse (.error k) = .re (.failed k) 0 (List.replicate 11 0#8)) ∧
  (∀ k, rdResponse (.error k) = .rd (.failed k) 0#8 0#50) ∧
  (reResponse (.error .malformedEncodingInput)).pack = 0x1 ∧ (rdResponse (.error .invalidTagCharacter)).pack = 0x2 ∧
  (∀ (low high : Operand) (s : State), ∃ t, exec (.encode low high) s = .next t ∧
    s.Answers t (reResponse (encodeTag low.toNat high.toNat))) ∧
  (∀ (tlen : BitVec 4) (ch : List Byte) (s : State), ∃ t, exec (.decode tlen ch) s = .next t ∧
    s.Answers t (rdResponse (decodeTag (ch.take tlen.toNat)))) ∧
  (∀ tag k, decodeTag tag = .error k → k = .invalidTagCharacter)

/-! ### The machine -/

/-- Where LTC accepts the presented word and nothing else was presented before, the step is the meaning of the
instruction the word decodes to, followed by the rest of the edge: the oldest due response taken if the host is ready,
nothing else of the answers changed, nothing presented any more. What the edge does in which order is the model's
reading (log entries 6, 9). -/
def Obligations.StepRunsTheDecodedInstruction : Prop :=
  ∀ (s : State) (i : Instr), s.accepts = true → s.seen = [] → decodeReq s.pins.req = i → i.WellFormed →
    ∃ t u, exec i s = .next t ∧ step s = .next u ∧ u = t.finishAccepted ∧
      u.answered = t.answered ∧ u.pins = t.pins ∧ u.seen = [] ∧ u.holdOff = false ∧
      u.taken = t.taken ++
        (if t.pins.rspReady = true then (t.pending.take 1).filterMap fun e => if e.wait = 0 then some e.response else none
         else [])

/-- No event stops LTC. -/
def Obligations.EveryEventCompletes : Prop := ∀ s : State, ∃ t, step s = .next t

/-- Right after reset no response is pending, `RSP_VALID` is 0 whatever the host drives, and the first edge accepts
nothing (10_state.md R23, 70_reset_and_hazards.md R160). The model's choices here: the levels of the host's pins, so
the statement holds for all of them (log entry 1), the first edge (log entry 6), no response taken, the host's record
being empty (log entry 10), and no value on `RSP` (log entry 15). -/
def Obligations.ResetStateHoldsNothing : Prop :=
  State.reset.pending = [] ∧ State.reset.answered = [] ∧
  ∀ p : Pins, (State.reset.drive p).rspValid = false ∧ (State.reset.drive p).rsp = none ∧
    (State.reset.drive p).accepts = false

/-- A reset drops every request in flight; while `RST = 1` and at the first edge after it nothing is accepted and
nothing presented; what was taken before stays taken; after that edge a presented request is accepted like any other,
as soon as LTC is ready. That REQ_READY is not looked at on that first edge is the model's reading (log entry 6). -/
def Obligations.ResetDropsRequestsInFlight : Prop :=
  ∀ s : State, s.pins.rst = true →
    s.accepts = false ∧ s.rspValid = false ∧
    ∃ t, step s = .next t ∧ t.pending = [] ∧ t.taken = s.taken ∧ t.pins = s.pins ∧
      ∀ p : Pins, p.rst = false →
        (t.drive p).accepts = false ∧ (t.drive p).rspValid = false ∧
        ∃ u, step (t.drive p) = .next u ∧ u.answered = s.taken ∧
          ∀ q : Pins, q.rst = false → q.reqValid = true → (u.drive q).accepts = (u.drive q).reqReady

/-- A request is accepted exactly where the interface rule says (off the first edge after a reset), and each accepted
request adds exactly one response, after all the earlier ones; no other event adds one. Off the first edge after a
reset: log entry 6. -/
def Obligations.OneResponseForEachAcceptedRequest : Prop :=
  ∀ s : State,
    (s.accepts = true ↔ s.pins.reqValid = true ∧ s.reqReady = true ∧ s.pins.rst = false ∧ s.holdOff = false) ∧
    ∃ t, step s = .next t ∧
      t.answered =
        (if s.pins.rst = true then s.taken else s.answered) ++
          (if s.accepts = true then [respond (decodeReq s.acceptedWord)] else [])

/-- A presented response stays on `RSP` while the host is not ready and there is no reset: the response to an accepted
request whatever else the host drives, and a response that a combinational LTC shows of a request it has not accepted
as long as the host keeps presenting that request, whatever it presented before (log entry 9). -/
def Obligations.PresentedResponseHoldsUntilTaken : Prop :=
  ∀ s : State, s.rspValid = true → s.pins.rspReady = false →
    s.rsp ≠ none ∧ ∃ t, step s = .next t ∧ t.taken = s.taken ∧
      (s.pending ≠ [] ∨ s.accepts = true →
        ∀ p : Pins, p.rst = false → (t.drive p).rspValid = true ∧ (t.drive p).rsp = s.rsp) ∧
      (∀ p : Pins, p.rst = false → p.reqValid = true → canonicalWord p.req = canonicalWord s.pins.req →
        (t.drive p).rspValid = true ∧ (t.drive p).rsp = s.rsp)

/-- A response is taken exactly where `RSP_VALID = 1`, `RSP_READY = 1` and `RST = 0`: it is the one that stands on
`RSP`, the oldest of those in flight and of the request accepted at this edge, and the only one. -/
def Obligations.ReadyHostTakesTheOldestResponse : Prop :=
  ∀ s : State,
    (s.rspValid = true → s.pins.rspReady = true →
      ∃ r t, s.rsp = some r.pack ∧ (s.pending.map Pending.response ++ (acceptedNow s).map respond).head? = some r ∧
        step s = .next t ∧ t.taken = s.taken ++ [r]) ∧
    (¬(s.rspValid = true ∧ s.pins.rspReady = true) → ∃ t, step s = .next t ∧ t.taken = s.taken)

/-- The purely combinational form of 30_encoding.md R59: with nothing in flight, and whatever was presented before,
`REQ_READY = RSP_READY`, `RSP_VALID = REQ_VALID` and `RSP` is the response word of `REQ`; a request is accepted and
its response taken at the same edge, or it stays presented and LTC stays combinational. What `RSP` shows before
acceptance is the model's reading (log entry 9). -/
def Obligations.CombinationalFormAnswersStraightThrough : Prop :=
  ∀ s : State, s.port = .through → s.pending = [] → s.holdOff = false → s.pins.rst = false →
    s.reqReady = s.pins.rspReady ∧ s.rspValid = s.pins.reqValid ∧
    (s.pins.reqValid = true → s.rsp = some (respondWord s.pins.req)) ∧
    ∃ t, step s = .next t ∧ t.pending = [] ∧
      t.taken = s.taken ++
        (if s.pins.reqValid = true ∧ s.pins.rspReady = true then [respond (decodeReq s.pins.req)] else []) ∧
      (s.pins.reqValid = true → s.pins.rspReady = false → t.port = .through)

/-- A request accepted with no response in flight stands answered on `RSP` at that very edge exactly where its `LAT`
is 0; then a ready host has taken the response after the edge, and in every other case it is still in flight. That it
stands on `RSP` at the accepting edge itself is the model's reading (log entry 9), and `LAT` as a number of edges, 0
where LTC is combinational, is the model's choice (log entry 4). -/
def Obligations.ZeroLatencyIsPresentedAtTheAcceptingEdge : Prop :=
  ∀ s : State, s.accepts = true → s.pending = [] → s.seen = [] →
    (s.rspValid = true ↔ s.latencyOf (decodeReq s.pins.req) = 0) ∧
    (s.rspValid = true → s.rsp = some (respondWord s.pins.req)) ∧
    ∃ t, step s = .next t ∧
      if s.rspValid = true ∧ s.pins.rspReady = true then
        t.taken = s.taken ++ [respond (decodeReq s.pins.req)] ∧ t.pending = []
      else t.taken = s.taken ∧ t.pending.map Pending.response = [respond (decodeReq s.pins.req)]

/-- Along every run without a reset, the answers are exactly the responses to the accepted requests, one each, in the
order of acceptance, after what was answered before. -/
def Obligations.ResponsesComeInOrderOfAcceptance : Prop :=
  ∀ (ps : List Pins) (s : State), (∀ p ∈ ps, p.rst = false) →
    ∃ t, runPins ps s = .next t ∧ t.answered = s.answered ++ (acceptedAlong ps s).map respond

/-- Along every run, resets among it, nothing taken is lost, and what is answered besides is a part, in order, of the
responses in flight at the start and those to the accepted requests: a reset drops responses and does nothing else to
them. -/
def Obligations.ResetsOnlyDropResponses : Prop :=
  ∀ (ps : List Pins) (s : State), ∃ t l, runPins ps s = .next t ∧ t.answered = s.taken ++ l ∧
    l.Sublist (s.pending.map Pending.response ++ (acceptedAlong ps s).map respond)

/-- Every request in flight is answered and taken after finitely many edges without reset at which the host is ready,
whatever else the host presents meanwhile; the bound is the waiting that LAT still asks for and one edge for each
response. Counting LAT in edges with RST = 0 is the model's choice (log entry 4). -/
def Obligations.AcceptedRequestsAreAnswered : Prop :=
  ∀ (ps : List Pins) (s : State), (∀ p ∈ ps, p.rst = false ∧ p.rspReady = true) → s.edgesOwed ≤ ps.length →
    ∃ t, runPins ps s = .next t ∧ s.answered <+: t.taken

/-- Where the host changed `REQ` before acceptance, the response is the correct one to some value that was presented.
What counts as presented is the model's reading (log entry 5). -/
def Obligations.ChangedRequestGetsTheAnswerToSomePresentedValue : Prop :=
  ∀ s : State, s.accepts = true →
    ∃ w ∈ s.pins.req :: s.seen, ∃ t, step s = .next t ∧ t.seen = [] ∧
      t.answered = s.answered ++ [respond (decodeReq w)]

/-- A host that keeps every bit that is not ignored unchanged, from the first presentation on and through resets, gets
the answer to the request it presents, as often as it is accepted (log entries 5, 8). -/
def Obligations.HeldRequestIsTheOneAnswered : Prop :=
  ∀ (ps : List Pins) (s : State) (w : ReqWord), s.seen = [] →
    (∀ p ∈ ps, p.reqValid = true ∧ canonicalWord p.req = canonicalWord w) →
    ∀ i ∈ acceptedAlong ps s, respond i = respond (decodeReq w)

/-- Every step keeps the invariant that all responses in flight and taken are legal, whatever the host drives next: no
response of a kind that 30_encoding.md R57 and 93_implementation_defined.md I9 rule out. -/
def Obligations.EveryStepKeepsResponsesLegal : Prop :=
  ∀ s t : State, s.Inv → step s = .next t → ∀ p : Pins, (t.drive p).Inv

/-- The invariant holds right after reset; that the host's record starts empty is the model's choice (log entry 10).
-/
def Obligations.ResetStateMeetsTheInvariant : Prop := State.reset.Inv

/-- The response to a request is a function of the request alone, and executing it changes nothing else. -/
def Obligations.ResponseDependsOnTheRequestOnly : Prop :=
  ∀ i : Instr, ∃ r, ∀ s : State, ∃ t, exec i s = .next t ∧ s.Answers t r

/-! ### ENCODE -/

/-- ENCODE completes for every pair of operands in every state: the response holds the base-14 spelling of `low + 256
* high`, read off the library's digits, through the alphabet and zero-filled; nothing else changes. -/
def Obligations.EncodeAnswersTheTag : Prop :=
  ∀ (low high : Operand) (s : State), ∃ t tag,
    tag = (if low.toNat + 256 * high.toNat = 0 then [0]
           else (Nat.digits 14 (low.toNat + 256 * high.toNat)).reverse).map (fun d => alpha.getD d 0#8) ∧
    1 ≤ tag.length ∧ tag.length ≤ 11 ∧
    exec (.encode low high) s = .next t ∧
    s.Answers t (.re .ok (BitVec.ofNat 4 tag.length) (tag ++ List.replicate (11 - tag.length) 0#8))

/-- 40_encode.md R71: REPACK gives 4 bytes, and popping hexadecimal digits as the source words it gives the arithmetic
form; the example. -/
def Obligations.RepackByPoppingIsRepack : Prop :=
  (∀ v : Nat, (repack v).length = 4 ∧ (∀ b ∈ repack v, b ≤ 255) ∧ repackByPopping v = repack v ∧
    ∀ j < 4, (repack v).getD j 0 = 16 * nib v (7 - 2 * j) + nib v (6 - 2 * j)) ∧
  (∀ (v n : Nat) (out : List Nat), n ≤ 3 →
    pairSteps (n + 1) ((digitsOf 16 v).reverse.drop (2 * (3 - n))) out =
      pairSteps n ((digitsOf 16 v).reverse.drop (2 * (3 - n) + 2))
        ((16 * nib v (2 * (3 - n) + 1) + nib v (2 * (3 - n))) :: out)) ∧
  repack 3130736 = [0, 47, 197, 112]

/-- 40_encode.md R73: REPACK is the four bytes of the low 32 bits, most significant first; higher digits are dropped.
-/
def Obligations.RepackIsTheLowFourBytes : Prop :=
  (∀ v : Nat, (∀ j < 4, (repack v).getD j 0 = v / 256 ^ (3 - j) % 256) ∧ repack v = repack (v % 2 ^ 32)) ∧
  repack 0x12345678 = [0x12, 0x34, 0x56, 0x78] ∧ repack 0x100000009 = [0, 0, 0, 9] ∧ repack 9 = [0, 0, 0, 9]

/-- 40_encode.md R75: the check fails exactly on a sequence that does not have 8 elements, and ENCODE never fails. -/
def Obligations.LengthCheckNeverFails : Prop :=
  (∀ seq : List Nat, lengthCheck seq = .error .malformedEncodingInput ↔ seq.length ≠ 8) ∧
  (∀ low high : Nat, (repack low).length = 4 ∧ (repack high).length = 4 ∧ (seqOf low high).length = 8 ∧
    encodeTag low high = .ok (subst (digits low high))) ∧
  seqOf 0 0 = [0, 0, 0, 0, 0, 0, 0, 0]

/-- 40_encode.md R76 and R77: a fold of four bytes is their big-endian number, nothing masked, 32 bits wide. -/
def Obligations.FoldIsTheBigEndianNumber : Prop :=
  (∀ b0 b1 b2 b3 : Nat, fold [b0, b1, b2, b3] = b0 * 2 ^ 24 + b1 * 2 ^ 16 + b2 * 2 ^ 8 + b3) ∧
  (∀ b0 b1 b2 b3 : Byte, fold [b0.toNat, b1.toNat, b2.toNat, b3.toNat] = (b0 ++ b1 ++ b2 ++ b3).toNat) ∧
  (∀ low high : Nat,
    lowLimb low high = fold [(seqOf low high).getD 0 0, (seqOf low high).getD 1 0,
      (seqOf low high).getD 2 0, (seqOf low high).getD 3 0] ∧
    highLimb low high = fold [(seqOf low high).getD 4 0, (seqOf low high).getD 5 0,
      (seqOf low high).getD 6 0, (seqOf low high).getD 7 0]) ∧
  fold [0, 47, 197, 112] = 3130736 ∧ fold [0, 0, 0, 0] = 0 ∧ fold [255, 255, 255, 255] = 4294967295 ∧
  fold [0, 0, 1, 0] = 256

/-- 40_encode.md R83: the stages REPACK, INTERLEAVE and FOLD together are the identity on 32-bit values, and the tag
is the base-14 spelling of `low + 256 * high`; on unbounded naturals the same with the operands modulo 2^32. -/
def Obligations.StagesTogetherAreTheClosedForm : Prop :=
  (∀ low high : Operand, lowLimb low.toNat high.toNat = low.toNat ∧ highLimb low.toNat high.toNat = high.toNat ∧
    eTotal low.toNat high.toNat = low.toNat + 256 * high.toNat) ∧
  (∀ low high : Nat, lowLimb low high = low % 2 ^ 32 ∧ highLimb low high = high % 2 ^ 32 ∧
    eTotal low high = low % 2 ^ 32 + 256 * (high % 2 ^ 32) ∧
    encodeTag low high = .ok (subst (b14 (low % 2 ^ 32 + 256 * (high % 2 ^ 32)))))

/-- 40_encode.md R79: B14 is the one list of digits below 14 that spells the number without a leading zero; the corner
cases. -/
def Obligations.BaseFourteenDigitsAreUnique : Prop :=
  (∀ t : Nat,
    (∀ d ∈ b14 t, d ≤ 13) ∧
    ((List.range (b14 t).length).map fun k => (b14 t).getD k 0 * 14 ^ ((b14 t).length - 1 - k)).sum = t ∧
    ((t = 0 ∧ b14 t = [0]) ∨ (0 < t ∧ (b14 t).headD 0 ≠ 0))) ∧
  (∀ (t : Nat) (ds : List Nat), (∀ d ∈ ds, d ≤ 13) →
    ((List.range ds.length).map fun k => ds.getD k 0 * 14 ^ (ds.length - 1 - k)).sum = t →
    ((t = 0 ∧ ds = [0]) ∨ (0 < t ∧ ds.headD 0 ≠ 0)) → ds = b14 t) ∧
  (∀ k : Nat, b14 (14 ^ k) = 1 :: List.replicate k 0) ∧
  (∀ k : Nat, 0 < k → b14 (14 ^ k - 1) = List.replicate k 13) ∧
  b14 0 = [0] ∧ b14 13 = [13] ∧ b14 14 = [1, 0] ∧ b14 801468425 = [7, 8, 6, 2, 12, 4, 8, 9]

/-- 40_encode.md R80: the number of digits of the total, from 1 to 11. -/
def Obligations.DigitCountOfTheTotal : Prop :=
  (∀ low high : Operand,
    (eTotal low.toNat high.toNat = 0 → (digits low.toNat high.toNat).length = 1) ∧
    (eTotal low.toNat high.toNat ≠ 0 → ∀ n : Nat, (digits low.toNat high.toNat).length = n ↔
      1 ≤ n ∧ 14 ^ (n - 1) ≤ eTotal low.toNat high.toNat ∧ eTotal low.toNat high.toNat < 14 ^ n) ∧
    1 ≤ (digits low.toNat high.toNat).length ∧ (digits low.toNat high.toNat).length ≤ 11) ∧
  14 ^ 10 ≤ 1103806594815 ∧ 1103806594815 < 14 ^ 11 ∧
  (digits (2 ^ 32 - 1) (2 ^ 32 - 1)).length = 11 ∧ eTotal (2 ^ 32 - 1) (2 ^ 32 - 1) = 1103806594815 ∧
  (digits 9 3130736).length = 8 ∧
  (List.range 16).map (fun k => 14 ^ k) =
    [1, 14, 196, 2744, 38416, 537824, 7529536, 105413504, 1475789056, 20661046784, 289254654976, 4049565169664,
     56693912375296, 793714773254144, 11112006825558016, 155568095557812224]

/-- 40_encode.md R84: the corner cases of ENCODE, and that no request fails. -/
def Obligations.EncodeCornerCases : Prop :=
  respond (.encode 0 0) = .re .ok 1 (zeroFill 11 [0x30#8]) ∧
  respond (.encode 13 0) = .re .ok 1 (zeroFill 11 [0x56#8]) ∧
  respond (.encode 14 0) = .re .ok 2 (zeroFill 11 [0x32#8, 0x30#8]) ∧
  respond (.encode 256 0) = .re .ok 3 (zeroFill 11 [0x32#8, 0x50#8, 0x50#8]) ∧
  respond (.encode 0 1) = .re .ok 3 (zeroFill 11 [0x32#8, 0x50#8, 0x50#8]) ∧
  respond (.encode 300 7) = .re .ok 3 (zeroFill 11 [0x4A#8, 0x52#8, 0x4C#8]) ∧
  respond (.encode 44 8) = .re .ok 3 (zeroFill 11 [0x4A#8, 0x52#8, 0x4C#8]) ∧
  respond (.encode 4294967295 4294967295) =
    .re .ok 11 [0x39#8, 0x43#8, 0x59#8, 0x56#8, 0x38#8, 0x55#8, 0x51#8, 0x50#8, 0x47#8, 0x32#8, 0x32#8] ∧
  respond (.encode 4294967295 0) = .re .ok 9
    (zeroFill 11 [0x38#8, 0x55#8, 0x4A#8, 0x59#8, 0x43#8, 0x51#8, 0x50#8, 0x4C#8, 0x39#8]) ∧
  respond (.encode 0 4294967295) = .re .ok 11
    [0x39#8, 0x43#8, 0x39#8, 0x30#8, 0x4C#8, 0x4C#8, 0x52#8, 0x43#8, 0x39#8, 0x47#8, 0x55#8] ∧
  (∀ v : Operand, (seqOf v.toNat v.toNat).take 4 = repack v.toNat ∧ (seqOf v.toNat v.toNat).drop 4 = repack v.toNat) ∧
  (∀ low high : Operand, (respond (.encode low high)).status = .ok)

/-! ### DECODE -/

/-- DECODE completes for every tag whose normalised characters are all in the alphabet, in every state: `T` is the
base-14 number the indices spell and the response is its low byte and the rest; nothing else changes. -/
def Obligations.DecodeAnswersThePair : Prop :=
  ∀ (tlen : BitVec 4) (ch : List Byte) (s : State) (idx : List Nat),
    lookup (normalise (ch.take tlen.toNat)) = idx.map some →
    ∃ t, exec (.decode tlen ch) s = .next t ∧ Nat.ofDigits 14 idx.reverse < 14 ^ 15 ∧
      s.Answers t (.rd .ok (BitVec.ofNat 8 (Nat.ofDigits 14 idx.reverse % 256))
        (BitVec.ofNat 50 (Nat.ofDigits 14 idx.reverse / 256)))

/-- DECODE of a tag with a character that is not in the alphabet after normalisation answers InvalidTagCharacter and
zeros, and nothing else changes: nothing is saved, and the next request is served as ever. -/
def Obligations.DecodeAnswersInvalidTagCharacter : Prop :=
  ∀ (tlen : BitVec 4) (ch : List Byte) (s : State) (c : Byte), c ∈ normalise (ch.take tlen.toNat) → c ∉ alpha →
    ∃ t, exec (.decode tlen ch) s = .next t ∧ s.Answers t (.rd (.failed .invalidTagCharacter) 0#8 0#50) ∧
      ∀ i : Instr, ∃ u, exec i t = .next u ∧ t.Answers u (respond i)

/-- 41_decode.md R105: the index, and which codes a tag as presented may hold. -/
def Obligations.AcceptedCodesOfATag : Prop :=
  (∀ (c : Byte) (d : Nat), index c = some d ↔ d < 14 ∧ alpha.getD d 0#8 = c) ∧
  acceptedCodes.length = 27 ∧ acceptedCodes.Nodup ∧
  (∀ (tlen : BitVec 4) (ch : List Byte),
    ((respond (.decode tlen ch)).status = .ok ↔ ∀ c ∈ ch.take tlen.toNat, c ∈ acceptedCodes) ∧
    ((respond (.decode tlen ch)).status = .failed .invalidTagCharacter ↔
      ∃ c ∈ ch.take tlen.toNat, c ∉ acceptedCodes)) ∧
  index 0x51#8 = some 7 ∧ index 0x30#8 = some 0 ∧ index 0x56#8 = some 13 ∧ index 0x41#8 = none

/-- 41_decode.md R102: uppercasing code by code. -/
def Obligations.UppercaseTouchesTheSmallLettersOnly : Prop :=
  (∀ c : Byte, (0x61 ≤ c.toNat → c.toNat ≤ 0x7A → (upper c).toNat = c.toNat - 0x20) ∧
    (c.toNat < 0x61 ∨ 0x7A < c.toNat → upper c = c)) ∧
  (∀ tag : List Byte, (uch tag).length = tag.length ∧
    ∀ k < tag.length, (uch tag).getD k 0#8 = upper (tag.getD k 0#8)) ∧
  upper 0x71#8 = 0x51#8 ∧ upper 0x38#8 = 0x38#8 ∧ upper 0x60#8 = 0x60#8 ∧ upper 0x7B#8 = 0x7B#8

/-- 41_decode.md R101, R103 and R104: NORM is total, shortens a tag by exactly its `#` characters and keeps the order
of the others; each of the others is uppercased and `O` becomes `0`. -/
def Obligations.NormalisationDropsHashesOnly : Prop :=
  ∀ tag : List Byte,
    (normalise tag).length = tag.length - tag.count 0x23#8 ∧
    normalise tag = (tag.filter fun c => c != 0x23#8).map (fun c => if upper c = 0x4F#8 then 0x30#8 else upper c) ∧
    (∀ c ∈ normalise tag, c ≠ 0x23#8 ∧ c ≠ 0x4F#8 ∧ ¬ (0x61 ≤ c.toNat ∧ c.toNat ≤ 0x7A))

/-- 42_arithmetic_and_properties.md R128: NORM is idempotent. -/
def Obligations.NormalisationIsIdempotent : Prop := ∀ tag : List Byte, normalise (normalise tag) = normalise tag

/-- 42_arithmetic_and_properties.md R127: digits and alphabet characters are in bijection. -/
def Obligations.AlphabetIsABijection : Prop :=
  (∀ d < 14, index (alphaAt d) = some d) ∧ (∀ d < 14, ∀ e < 14, d ≠ e → alphaAt d ≠ alphaAt e) ∧
  (∀ c ∈ alpha, ∃ d, index c = some d ∧ alphaAt d = c)

/-- 41_decode.md R107: the sum over rising powers from the end is the multiply-accumulate form from the start, and it
fits 58 bits for every request. -/
def Obligations.SumOfPowersIsTheHornerForm : Prop :=
  (∀ (nch : List Byte) (idx : List Nat), lookup nch = idx.map some → accum nch = .ok (horner idx)) ∧
  (∀ (tlen : BitVec 4) (ch : List Byte), (normalise (ch.take tlen.toNat)).length ≤ tlen.toNat ∧ tlen.toNat ≤ 15 ∧
    ∀ t, dTotal (ch.take tlen.toNat) = .ok t → t ≤ 155568095557812223) ∧
  155568095557812223 = 14 ^ 15 - 1 ∧ 14 ^ 15 - 1 < 2 ^ 58 ∧ horner [1] = 1 ∧ horner [1, 0] = 14

/-- 41_decode.md R109: the two outputs are the total modulo and divided by 256, and nothing of it is cut off by their
widths. -/
def Obligations.SplitCutsNothingOff : Prop :=
  (∀ (tlen : BitVec 4) (ch : List Byte) (t : Nat), dTotal (ch.take tlen.toNat) = .ok t →
    ∃ lowOut highOut, respond (.decode tlen ch) = .rd .ok lowOut highOut ∧
      lowOut.toNat = t % 256 ∧ highOut.toNat = t / 256 ∧ t = lowOut.toNat + 256 * highOut.toNat ∧
      lowOut = (BitVec.ofNat 58 t).extractLsb' 0 8 ∧ highOut = (BitVec.ofNat 58 t).extractLsb' 8 50 ∧
      highOut.toNat ≤ 607687873272703 ∧ (t < 256 → highOut = 0)) ∧
  (14 ^ 15 - 1) / 256 = 607687873272703 ∧ splitTotal 10979096920 = (88, 42887097)

/-- 42_arithmetic_and_properties.md R134: tags that differ, normalised, in leading `0` characters only decode alike.
-/
def Obligations.LeadingZerosDoNotMatter : Prop :=
  (∀ t t' : List Byte, (∃ m n core, normalise t = List.replicate m 0x30#8 ++ core ∧
      normalise t' = List.replicate n 0x30#8 ++ core) →
    decodeTag t = decodeTag t') ∧
  (∀ t ∈ ([[0x51#8, 0x4C#8, 0x38#8, 0x32#8, 0x55#8, 0x55#8, 0x47#8, 0x47#8, 0x47#8],
      [0x23#8, 0x51#8, 0x4C#8, 0x38#8, 0x32#8, 0x55#8, 0x55#8, 0x47#8, 0x47#8, 0x47#8],
      [0x71#8, 0x6C#8, 0x38#8, 0x32#8, 0x75#8, 0x75#8, 0x67#8, 0x67#8, 0x67#8],
      [0x51#8, 0x23#8, 0x4C#8, 0x38#8, 0x32#8, 0x55#8, 0x55#8, 0x47#8, 0x47#8, 0x47#8],
      [0x30#8, 0x51#8, 0x4C#8, 0x38#8, 0x32#8, 0x55#8, 0x55#8, 0x47#8, 0x47#8, 0x47#8],
      [0x4F#8, 0x51#8, 0x4C#8, 0x38#8, 0x32#8, 0x55#8, 0x55#8, 0x47#8, 0x47#8, 0x47#8]] : List (List Byte)),
    decodeTag t = .ok (88, 42887097))

/-! ### The pair -/

/-- 42_arithmetic_and_properties.md R130: decoding the tag that ENCODE emits gives the total back, split again. -/
def Obligations.DecodeAfterEncode : Prop :=
  ∀ low high : Operand, ∃ tag lowOut highOut,
    respond (.encode low high) = tagResponse tag ∧ tag.length ≤ 11 ∧
    dTotal tag = .ok (eTotal low.toNat high.toNat) ∧ eTotal low.toNat high.toNat = low.toNat + 256 * high.toNat ∧
    respond (tagRequest tag) = .rd .ok lowOut highOut ∧
    lowOut.toNat = low.toNat % 256 ∧ highOut.toNat = high.toNat + low.toNat / 256 ∧
    highOut.toNat ≤ 2 ^ 32 - 1 + (2 ^ 24 - 1)

/-- 42_arithmetic_and_properties.md R131: the round trip gives the pair back exactly when `low < 256`. -/
def Obligations.RoundTripExactlyWhenLowIsAByte : Prop :=
  ∀ (low high : Operand) (tag : List Byte), respond (.encode low high) = tagResponse tag → tag.length ≤ 11 →
    ((∃ lowOut highOut, respond (tagRequest tag) = .rd .ok lowOut highOut ∧
        lowOut.toNat = low.toNat ∧ highOut.toNat = high.toNat) ↔ low.toNat < 256)

/-- 42_arithmetic_and_properties.md R132: encoding a decoded pair, where it fits, emits the canonical spelling of the
tag; that is the tag itself exactly when it is canonical; every tag of ten digits or fewer fits. -/
def Obligations.EncodeAfterDecodeIsTheCanonicalSpelling : Prop :=
  (∀ (tag : List Byte) (lowOut : BitVec 8) (highOut : BitVec 50), tag.length ≤ 15 →
    respond (tagRequest tag) = .rd .ok lowOut highOut →
    (highOut.toNat ≤ 2 ^ 32 - 1 →
      respond (.encode (lowOut.setWidth 32) (highOut.setWidth 32)) = tagResponse (canonicalSpelling (normalise tag)) ∧
      (canonicalSpelling (normalise tag)).length ≤ 11) ∧
    (canonicalSpelling (normalise tag) = tag ↔ canonicalTag tag = true) ∧
    (lowOut.toNat + 256 * highOut.toNat < 2 ^ 40 → highOut.toNat ≤ 2 ^ 32 - 1) ∧
    ((canonicalSpelling (normalise tag)).length ≤ 10 → lowOut.toNat + 256 * highOut.toNat < 2 ^ 40)) ∧
  ∃ tag lowOut highOut, tag.length = 11 ∧ respond (tagRequest tag) = .rd .ok lowOut highOut ∧
    2 ^ 32 - 1 < highOut.toNat

/-- Two pairs get the same tag exactly when their totals are the same (42_arithmetic_and_properties.md, Collisions).
-/
def Obligations.SameTagExactlyWhenSameTotal : Prop :=
  ∀ low high low' high' : Operand,
    respond (.encode low high) = respond (.encode low' high') ↔
      low.toNat + 256 * high.toNat = low'.toNat + 256 * high'.toNat

/-- The two fixed scenarios of the source, with the values the rules give. -/
def Obligations.FixedScenarios : Prop :=
  respond (tagRequest selfTestTag) = .rd .ok 88 42887097 ∧
  respond (.encode 9 3130736) = tagResponse [0x51#8, 0x47#8, 0x4C#8, 0x38#8, 0x55#8, 0x50#8, 0x47#8, 0x52#8] ∧
  respond (tagRequest selfTestTag) ≠ .rd .ok 9 3130736 ∧
  respond (.encode 9 3130736) ≠ tagResponse [0x51#8, 0x4C#8, 0x38#8, 0x32#8, 0x55#8, 0x55#8, 0x47#8, 0x47#8, 0x47#8]

/-! ### The assembler -/

/-- Disassembling a request word and assembling the text gives one request, the canonical one, which differs from the
original in ignored bits only. -/
def Obligations.AssemblyOfDisassemblyIsCanonical : Prop :=
  ∀ w : ReqWord, ∃ i, assembleLine (disassembleWord w) = .ok [i] ∧ encode i = canonicalWord w ∧
    respond i = respond (decodeReq w)

/-- `SELFTEST` assembles to DECODE of `#QL82UUGGG` followed by ENCODE of 9 and 3130736. That it does so in small
letters and after a blank is the model's choice (log entry 18). -/
def Obligations.SelfTestExpands : Prop :=
  assembleLine "SELFTEST".toList = .ok [tagRequest selfTestTag, .encode 9 3130736] ∧
  assembleLine " selftest ; the source's own program".toList = .ok [tagRequest selfTestTag, .encode 9 3130736] ∧
  programResult [tagRequest selfTestTag, .encode 9 3130736] =
    [.rd .ok 88 42887097, tagResponse [0x51#8, 0x47#8, 0x4C#8, 0x38#8, 0x55#8, 0x50#8, 0x47#8, 0x52#8]]
end

