-- ==== Sys2Proof/Laws/State.lean ====
section
/-!
SUPPORT. One lemma per field of State for each update, so that no proof unfolds a record update.
-/

namespace Sys2Proof.Machine

@[simp] theorem State.drive_pins (s : State) (p : Pins) : (s.drive p).pins = p := rfl
@[simp] theorem State.drive_port (s : State) (p : Pins) : (s.drive p).port = s.port := rfl
@[simp] theorem State.drive_holdOff (s : State) (p : Pins) : (s.drive p).holdOff = s.holdOff := rfl
@[simp] theorem State.drive_seen (s : State) (p : Pins) : (s.drive p).seen = s.seen := rfl
@[simp] theorem State.drive_pending (s : State) (p : Pins) : (s.drive p).pending = s.pending := rfl
@[simp] theorem State.drive_taken (s : State) (p : Pins) : (s.drive p).taken = s.taken := rfl
@[simp] theorem State.drive_free (s : State) (p : Pins) : (s.drive p).free = s.free := rfl

@[simp] theorem State.accept_pins (s : State) (i : Instr) (r : Response) : (s.accept i r).pins = s.pins := rfl
@[simp] theorem State.accept_port (s : State) (i : Instr) (r : Response) : (s.accept i r).port = s.port := rfl
@[simp] theorem State.accept_holdOff (s : State) (i : Instr) (r : Response) : (s.accept i r).holdOff = s.holdOff := rfl
@[simp] theorem State.accept_seen (s : State) (i : Instr) (r : Response) : (s.accept i r).seen = s.seen := rfl
@[simp] theorem State.accept_pending (s : State) (i : Instr) (r : Response) :
    (s.accept i r).pending = s.pending ++ [⟨r, s.latencyOf i⟩] := rfl
@[simp] theorem State.accept_taken (s : State) (i : Instr) (r : Response) : (s.accept i r).taken = s.taken := rfl
@[simp] theorem State.accept_free (s : State) (i : Instr) (r : Response) : (s.accept i r).free = s.free + 1 := rfl

@[simp] theorem State.keepPresenting_pins (s : State) : (s.keepPresenting).pins = s.pins := rfl
@[simp] theorem State.keepPresenting_port (s : State) : (s.keepPresenting).port = s.port := rfl
@[simp] theorem State.keepPresenting_holdOff (s : State) : (s.keepPresenting).holdOff = s.holdOff := rfl
@[simp] theorem State.keepPresenting_seen (s : State) :
    (s.keepPresenting).seen = (if s.pins.reqValid then s.pins.req :: s.seen else []) := rfl
@[simp] theorem State.keepPresenting_pending (s : State) : (s.keepPresenting).pending = s.pending := rfl
@[simp] theorem State.keepPresenting_taken (s : State) : (s.keepPresenting).taken = s.taken := rfl
@[simp] theorem State.keepPresenting_free (s : State) : (s.keepPresenting).free = s.free := rfl

@[simp] theorem State.resetEdge_pins (s : State) : (s.resetEdge).pins = s.pins := rfl
@[simp] theorem State.resetEdge_port (s : State) : (s.resetEdge).port = nextPort s.free := rfl
@[simp] theorem State.resetEdge_holdOff (s : State) : (s.resetEdge).holdOff = true := rfl
@[simp] theorem State.resetEdge_seen (s : State) : (s.resetEdge).seen = s.seen := rfl
@[simp] theorem State.resetEdge_pending (s : State) : (s.resetEdge).pending = [] := rfl
@[simp] theorem State.resetEdge_taken (s : State) : (s.resetEdge).taken = s.taken := rfl
@[simp] theorem State.resetEdge_free (s : State) : (s.resetEdge).free = s.free + 1 := rfl

@[simp] theorem State.takeResponse_pins (s : State) : s.takeResponse.pins = s.pins := by
  unfold State.takeResponse
  split
  · rfl
  · split <;> rfl

@[simp] theorem State.takeResponse_port (s : State) : s.takeResponse.port = s.port := by
  unfold State.takeResponse
  split
  · rfl
  · split <;> rfl

@[simp] theorem State.takeResponse_holdOff (s : State) : s.takeResponse.holdOff = s.holdOff := by
  unfold State.takeResponse
  split
  · rfl
  · split <;> rfl

@[simp] theorem State.takeResponse_seen (s : State) : s.takeResponse.seen = s.seen := by
  unfold State.takeResponse
  split
  · rfl
  · split <;> rfl

@[simp] theorem State.takeResponse_free (s : State) : s.takeResponse.free = s.free := by
  unfold State.takeResponse
  split
  · rfl
  · split <;> rfl

@[simp] theorem State.finishEdge_pins (s : State) : s.finishEdge.pins = s.pins := by
  simp [State.finishEdge]
@[simp] theorem State.finishEdge_port (s : State) :
    s.finishEdge.port = if s.showsThrough then .through else nextPort s.free := by
  simp [State.finishEdge]
@[simp] theorem State.finishEdge_holdOff (s : State) : s.finishEdge.holdOff = false := rfl
@[simp] theorem State.finishEdge_seen (s : State) : s.finishEdge.seen = s.seen := by
  simp [State.finishEdge]
@[simp] theorem State.finishEdge_pending (s : State) : s.finishEdge.pending = s.takeResponse.pending.map Pending.tick := rfl
@[simp] theorem State.finishEdge_taken (s : State) : s.finishEdge.taken = s.takeResponse.taken := rfl
@[simp] theorem State.finishEdge_free (s : State) : s.finishEdge.free = s.free + 1 := by
  simp [State.finishEdge]

@[simp] theorem State.finishAccepted_pins (s : State) : s.finishAccepted.pins = s.finishEdge.pins := rfl
@[simp] theorem State.finishAccepted_port (s : State) : s.finishAccepted.port = s.finishEdge.port := rfl
@[simp] theorem State.finishAccepted_holdOff (s : State) : s.finishAccepted.holdOff = s.finishEdge.holdOff := rfl
@[simp] theorem State.finishAccepted_seen (s : State) : s.finishAccepted.seen = [] := rfl
@[simp] theorem State.finishAccepted_pending (s : State) : s.finishAccepted.pending = s.finishEdge.pending := rfl
@[simp] theorem State.finishAccepted_taken (s : State) : s.finishAccepted.taken = s.finishEdge.taken := rfl
@[simp] theorem State.finishAccepted_free (s : State) : s.finishAccepted.free = s.finishEdge.free := rfl

@[simp] theorem State.withFetchWord_pins (s : State) (n w : Nat) :
    (s.withFetchWord n w).pins = ⟨false, true, BitVec.ofNat 125 (w % 2 ^ n), s.pins.rspReady⟩ := rfl
@[simp] theorem State.withFetchWord_port (s : State) (n w : Nat) :
    (s.withFetchWord n w).port = .ready := rfl
@[simp] theorem State.withFetchWord_holdOff (s : State) (n w : Nat) :
    (s.withFetchWord n w).holdOff = false := rfl
@[simp] theorem State.withFetchWord_seen (s : State) (n w : Nat) :
    (s.withFetchWord n w).seen = [] := rfl
@[simp] theorem State.withFetchWord_pending (s : State) (n w : Nat) :
    (s.withFetchWord n w).pending = s.pending := rfl
@[simp] theorem State.withFetchWord_taken (s : State) (n w : Nat) :
    (s.withFetchWord n w).taken = s.taken := rfl
@[simp] theorem State.withFetchWord_free (s : State) (n w : Nat) :
    (s.withFetchWord n w).free = s.free := rfl

@[simp] theorem Pending.tick_response (e : Pending) : e.tick.response = e.response := rfl
@[simp] theorem Pending.tick_wait (e : Pending) : e.tick.wait = e.wait - 1 := rfl

end Sys2Proof.Machine
end

