-- ==== Sys2Proof/Laws/Ops.lean ====
section
/-!
SUPPORT. What each shared operation of the machine can do, said once.
-/

namespace Sys2Proof.Machine

theorem State.accepts_iff (s : State) :
    s.accepts = true ↔ s.pins.reqValid = true ∧ s.reqReady = true ∧ s.pins.rst = false ∧ s.holdOff = false := by
  simp [State.accepts, and_assoc]

/-- `REQ_READY` is 0 in a busy LTC, 1 in a ready one and `RSP_READY` in a combinational one. -/
theorem State.reqReady_iff (s : State) :
    s.reqReady = true ↔ s.port = .ready ∨ s.port = .through ∧ s.pins.rspReady = true := by
  unfold State.reqReady
  split <;> simp [*]

@[simp] theorem State.latencyOf_through (s : State) (i : Instr) (h : s.port = .through) : s.latencyOf i = 0 := by
  simp [State.latencyOf, h]

/-- After an acceptance no request stands unaccepted on `RSP`. -/
@[simp] theorem State.accept_showsThrough (s : State) (i : Instr) (r : Response) :
    (s.accept i r).showsThrough = false := by
  simp [State.showsThrough, State.combinational]

/-- A request is offered where it is accepted, and where only `RSP_READY` is missing. -/
theorem State.offered_iff (s : State) :
    s.offered = true ↔ s.accepts = true ∨
      s.port = .through ∧ s.pins.rspReady = false ∧ s.pins.reqValid = true ∧ s.pins.rst = false ∧ s.holdOff = false := by
  rw [State.accepts_iff, State.reqReady_iff]
  cases hp : s.port <;> cases hr : s.pins.rspReady <;> simp [State.offered, hp, and_assoc]

/-- What stands on `RSP`: the oldest response in flight, due, or with none in flight the response to an offered request with
`LAT = 0`. -/
theorem State.presented_eq_some (s : State) (r : Response) :
    s.presented = some r ↔ s.pins.rst = false ∧
      ((∃ e rest, s.pending = e :: rest ∧ e.wait = 0 ∧ e.response = r) ∨
        (s.pending = [] ∧ s.offered = true ∧ s.latencyOf (decodeReq s.acceptedWord) = 0 ∧
          respond (decodeReq s.acceptedWord) = r)) := by
  unfold State.presented State.straight
  cases s.pins.rst <;> cases hp : s.pending <;> simp [and_assoc]

theorem State.rspValid_iff (s : State) : s.rspValid = true ↔ ∃ r, s.presented = some r := Option.isSome_iff_exists

/-- Taking a response changes nothing, or moves the oldest response, which is due, from the queue to the host. -/
theorem State.takeResponse_cases (s : State) :
    (s.takeResponse = s ∧ (s.pins.rspReady = false ∨ ∀ e rest, s.pending = e :: rest → e.wait ≠ 0)) ∨
      ∃ e rest, s.pending = e :: rest ∧ e.wait = 0 ∧ s.pins.rspReady = true ∧
        s.takeResponse = { s with pending := rest, taken := s.taken ++ [e.response] } := by
  unfold State.takeResponse
  split
  · rename_i h
    exact .inl ⟨rfl, .inr (by simp [h])⟩
  · rename_i e rest h
    split
    · rename_i hc
      simp only [Bool.and_eq_true, beq_iff_eq] at hc
      exact .inr ⟨e, rest, h, hc.2, hc.1, rfl⟩
    · rename_i hc
      refine .inl ⟨rfl, ?_⟩
      simp only [Bool.and_eq_true, beq_iff_eq, not_and] at hc
      cases hr : s.pins.rspReady
      · exact .inl rfl
      · refine .inr fun e' rest' h' => ?_
        have : e' = e := by simpa using congrArg List.head? (h'.symm.trans h)
        exact this ▸ hc hr

@[simp] theorem State.drive_answered (s : State) (p : Pins) : (s.drive p).answered = s.answered := rfl

@[simp] theorem State.keepPresenting_answered (s : State) : s.keepPresenting.answered = s.answered := rfl

@[simp] theorem State.accept_answered (s : State) (i : Instr) (r : Response) :
    (s.accept i r).answered = s.answered ++ [r] := by
  simp [State.answered]

@[simp] theorem State.resetEdge_answered (s : State) : s.resetEdge.answered = s.taken := by
  simp [State.answered]

@[simp] theorem State.takeResponse_answered (s : State) : s.takeResponse.answered = s.answered := by
  obtain ⟨h, -⟩ | ⟨e, rest, hp, -, -, h⟩ := s.takeResponse_cases
  · rw [h]
  · rw [h]
    simp [State.answered, hp]

@[simp] theorem State.finishEdge_answered (s : State) : s.finishEdge.answered = s.answered := by
  rw [← s.takeResponse_answered]
  simp [State.answered, Function.comp_def]

@[simp] theorem State.finishAccepted_answered (s : State) : s.finishAccepted.answered = s.answered :=
  s.finishEdge_answered

/-- LTC is combinational where nothing is in flight and its request side is combinational. -/
theorem State.combinational_iff (s : State) : s.combinational = true ↔ s.pending = [] ∧ s.port = .through := by
  simp [State.combinational]

@[simp] theorem State.drive_combinational (s : State) (p : Pins) :
    (s.drive p).combinational = s.combinational := rfl

@[simp] theorem State.keepPresenting_combinational (s : State) :
    s.keepPresenting.combinational = s.combinational := rfl

/-- The accepted word is one of the values presented. -/
theorem State.acceptedWord_mem (s : State) : s.acceptedWord ∈ s.pins.req :: s.seen := by
  unfold State.acceptedWord
  split
  · simp
  · rename_i w ws h
    split
    · simp
    · rw [h]
      have hlt : Config.pick s.free % ((w :: ws).length + 1) < (s.pins.req :: w :: ws).length :=
        Nat.mod_lt _ (by simp)
      rw [List.getD_eq_getElem _ _ hlt]
      exact List.getElem_mem hlt

/-- With nothing presented before, the presented word is accepted. -/
@[simp] theorem State.acceptedWord_of_seen_nil (s : State) (h : s.seen = []) : s.acceptedWord = s.pins.req := by
  simp [State.acceptedWord, h]

/-- A combinational LTC accepts, and answers, the word that is on `REQ` now, whatever was there before. -/
@[simp] theorem State.acceptedWord_of_combinational (s : State) (h : s.combinational = true) :
    s.acceptedWord = s.pins.req := by
  unfold State.acceptedWord
  split
  · rfl
  · simp [h]

/-- Every instruction has the effect of accepting its response, and no other. -/
theorem exec_eq_accept (i : Instr) (s : State) : exec i s = .next (s.accept i (respond i)) := by
  cases i <;> rfl

/-- What one event can do: a reset, an edge that accepts a request, an edge that does not. -/
theorem step_cases (s : State) :
    (s.pins.rst = true ∧ step s = .next s.keepPresenting.resetEdge) ∨
      (s.pins.rst = false ∧ s.accepts = true ∧
        step s =
          .next (s.accept (decodeReq s.acceptedWord) (respond (decodeReq s.acceptedWord))).finishAccepted) ∨
      (s.pins.rst = false ∧ s.accepts = false ∧ step s = .next s.keepPresenting.finishEdge) := by
  cases hr : s.pins.rst
  · cases ha : s.accepts
    · exact .inr (.inr ⟨rfl, rfl, by simp [step, hr, ha]⟩)
    · exact .inr (.inl ⟨rfl, rfl, by simp [step, hr, ha, exec_eq_accept, closeEdge]⟩)
  · exact .inl ⟨rfl, by simp [step, hr]⟩

end Sys2Proof.Machine
end

