-- ==== Sys2Proof/Laws/PerInstr.lean ====
section
/-!
SUPPORT. Facts about every instruction as syntax, one lemma per constructor.
-/

namespace Sys2Proof.Laws

/-- Bit 0 of an instruction's word is its opcode, so the decoder reads the format that the instruction has
(30_encoding.md R50). -/
def OpBit.Statement (i : Instr) : Prop := reqOp (encode i) = i.op ∧ (decodeReq (encode i)).op = i.op

/-- A word's opcode is the parity of its number. -/
theorem reqOp_ofNat (n : Nat) : reqOp (BitVec.ofNat 125 n) = decide (n % 2 = 1) := by
  rw [reqOp, BitVec.getLsbD_ofNat, Nat.testBit_zero]
  simp

/-- The decoder's instruction has the word's opcode (30_encoding.md R56). -/
@[simp] theorem decodeReq_op (w : ReqWord) : (decodeReq w).op = reqOp w := by
  unfold decodeReq
  cases reqOp w <;> rfl

theorem OpBit.encode (low high : Operand) : OpBit.Statement (.encode low high) := by
  have h : reqOp (Sys2Proof.encode (.encode low high)) = false := by
    have hp : (low.toNat * 2 ^ 1 + high.toNat * 2 ^ 33) % 2 = 0 := by omega
    rw [Sys2Proof.encode, reqOp_ofNat, hp]
    rfl
  exact ⟨h, (decodeReq_op _).trans h⟩

theorem OpBit.decode (tlen : BitVec 4) (ch : List Byte) : OpBit.Statement (.decode tlen ch) := by
  have h : reqOp (Sys2Proof.encode (.decode tlen ch)) = true := by
    have hp : (1 + tlen.toNat * 2 ^ 1 + packChars (ch.take Config.tagMax) * 2 ^ 5) % 2 = 1 := by omega
    rw [Sys2Proof.encode, reqOp_ofNat, hp]
    rfl
  exact ⟨h, (decodeReq_op _).trans h⟩

end Sys2Proof.Laws
end

