-- ==== Sys2Proof/Laws/Stages.lean ====
section
/-!
SUPPORT. What the stages of ENCODE and DECODE and the packed arrays compute, one lemma for each.
-/

namespace Sys2Proof.Machine

/-- Two hexadecimal digits side by side are one base-256 digit (40_encode.md R73). -/
theorem nib_pair (v m : Nat) : 16 * nib v (2 * m + 1) + nib v (2 * m) = v / 256 ^ m % 256 := by
  have h256 : (256 : Nat) ^ m = 16 ^ (2 * m) := by rw [pow_mul]; norm_num
  unfold nib
  rw [h256, pow_succ, ← Nat.div_div_eq_div_mul]
  omega

theorem repack_eq (v : Nat) :
    repack v = [v / 256 ^ 3 % 256, v / 256 ^ 2 % 256, v / 256 ^ 1 % 256, v / 256 ^ 0 % 256] := by
  rw [← nib_pair v 3, ← nib_pair v 2, ← nib_pair v 1, ← nib_pair v 0]
  rfl

@[simp] theorem repack_length (v : Nat) : (repack v).length = 4 := by simp [repack, Config.npair]

theorem fold_append_singleton (g : List Nat) (e : Nat) : fold (g ++ [e]) = fold g * 256 + e := by
  simp [fold, Config.limbMul]

theorem digitLoop_eq (b : Nat) (hb : 1 < b) :
    ∀ fuel t acc, t ≤ fuel → digitLoop b fuel t acc = (Nat.digits b t).reverse ++ acc := by
  intro fuel
  induction fuel with
  | zero => intro t acc h; simp [digitLoop, Nat.le_zero.mp h]
  | succ fuel ih =>
    intro t acc h
    unfold digitLoop
    split
    · simp [*]
    · rename_i ht
      have hlt : t / b < t := Nat.div_lt_self (Nat.pos_of_ne_zero ht) hb
      rw [ih _ _ (by omega), Nat.digits_def' hb (Nat.pos_of_ne_zero ht)]
      simp

/-- The digits of a number are the library's, most significant first, but for 0, which has one digit. -/
theorem digitsOf_eq (b t : Nat) (hb : 1 < b) :
    digitsOf b t = if t = 0 then [0] else (Nat.digits b t).reverse := by
  unfold digitsOf
  split
  · rfl
  · rw [digitLoop_eq b hb t t [] le_rfl]
    simp

theorem digitsOf_lt (b t d : Nat) (hb : 1 < b) (h : d ∈ digitsOf b t) : d < b := by
  rw [digitsOf_eq b t hb] at h
  split at h
  · simp at h; omega
  · exact Nat.digits_lt_base hb (List.mem_reverse.mp h)

/-- The alphabet is looked up back to the index it was read at (42_arithmetic_and_properties.md R127, first half). -/
@[simp] theorem index_alphaAt (d : Nat) (h : d < 14) : index (alphaAt d) = some d := by
  interval_cases d <;> decide

/-- An index that is found is below 14 and is where the character stands. -/
theorem index_eq_some (c : Byte) (d : Nat) (h : index c = some d) : d < 14 ∧ alphaAt d = c := by
  unfold index at h
  have hm : c ∈ alpha := by
    by_contra hc
    rw [List.idxOf?_eq_none_iff.mpr hc] at h
    cases h
  simp only [alpha, List.mem_cons, List.not_mem_nil, or_false] at hm
  rcases hm with rfl | rfl | rfl | rfl | rfl | rfl | rfl | rfl | rfl | rfl | rfl | rfl | rfl | rfl <;>
    (cases h; decide)

theorem index_eq_none_iff (c : Byte) : index c = none ↔ c ∉ alpha := List.idxOf?_eq_none_iff

/-- ACCUM on characters that are all found: the sum with rising powers of 14 (41_decode.md R106). -/
theorem accumLoop_ok (cs : List Byte) (ds : List Nat) (h : cs.map index = ds.map some) (i total : Nat) :
    accumLoop cs i total = .ok (total + 14 ^ i * Nat.ofDigits 14 ds) := by
  induction cs generalizing ds i total with
  | nil =>
    cases ds with
    | nil => simp [accumLoop]
    | cons d ds => cases h
  | cons c cs ih =>
    cases ds with
    | nil => cases h
    | cons d ds =>
      simp only [List.map_cons, List.cons.injEq] at h
      simp only [accumLoop, h.1]
      rw [ih ds h.2, Nat.ofDigits_cons, Config.radix, pow_succ]
      congr 1
      ring

/-- ACCUM fails exactly when some character is not in the alphabet (41_decode.md R105). -/
theorem accumLoop_error_iff (cs : List Byte) (i total : Nat) :
    accumLoop cs i total = .error .invalidTagCharacter ↔ ∃ c ∈ cs, c ∉ alpha := by
  induction cs generalizing i total with
  | nil => simp [accumLoop]
  | cons c cs ih =>
    unfold accumLoop
    cases hc : index c with
    | none => simp [(index_eq_none_iff c).mp hc]
    | some d =>
      have hm : c ∈ alpha := by
        by_contra hn
        rw [(index_eq_none_iff c).mpr hn] at hc
        cases hc
      simp [ih, hm]

/-- The only error of ACCUM is InvalidTagCharacter. -/
theorem accumLoop_error (cs : List Byte) (i total : Nat) (k : ErrorKind) (h : accumLoop cs i total = .error k) :
    k = .invalidTagCharacter := by
  induction cs generalizing i total with
  | nil => cases h
  | cons c cs ih =>
    unfold accumLoop at h
    split at h
    · cases h; rfl
    · exact ih _ _ h

theorem normalise_append (a b : List Byte) : normalise (a ++ b) = normalise a ++ normalise b := by
  simp [normalise, sch, strip, uch]

/-- NORM never lengthens a tag (41_decode.md R101). -/
theorem normalise_length_le (tag : List Byte) : (normalise tag).length ≤ tag.length := by
  simpa [normalise, sch, strip, uch] using List.length_filter_le _ (tag.map upper)

@[simp] theorem reResponse_error (k : ErrorKind) : reResponse (.error k) = failRE k := rfl

@[simp] theorem reResponse_ok (tag : List Byte) : reResponse (.ok tag) = tagResponse tag := rfl

@[simp] theorem rdResponse_error (k : ErrorKind) : rdResponse (.error k) = failRD k := rfl

@[simp] theorem rdResponse_ok (p : Nat × Nat) : rdResponse (.ok p) = pairResponse p := rfl

theorem packChars_lt (cs : List Byte) : packChars cs < 256 ^ cs.length := by
  induction cs with
  | nil => simp [packChars]
  | cons c cs ih =>
    have := c.isLt
    simp only [packChars, List.length_cons, pow_succ]
    omega

/-- Element `k` of a packed array is its base-256 digit `k` (20_memory.md R35). -/
theorem packChars_digit (cs : List Byte) (k : Nat) :
    packChars cs / 256 ^ k % 256 = (cs.getD k 0).toNat := by
  induction cs generalizing k with
  | nil => simp [packChars]
  | cons c cs ih =>
    have := c.isLt
    cases k with
    | zero => simp [packChars]; omega
    | succ k =>
      simp only [packChars, List.getD_cons_succ, ← ih k, pow_succ, Nat.mul_comm (256 ^ k) 256, ← Nat.div_div_eq_div_mul]
      congr 2
      omega

end Sys2Proof.Machine
end

