-- ==== Sys2Proof/Tests/Slice0.lean ====
section
/-!
SUPPORT. Checks of the model on fixed values: the well-formedness smoke test, words written out from the encoding tables,
vectors of 95_test_vectors.md, and for every obligation with hypotheses a witness that meets them.
-/

-- One theorem at a time: kernel checks in parallel threads take a gigabyte of stack each.
set_option Elab.async false

namespace Sys2Proof.Machine

/-- The packed responses after an event. -/
def Tests.packedAnswers : Host.Outcome State Fault Refusal → List RspWord
  | .next t => t.answered.map Response.pack
  | .fault _ => []
  | .refused _ => []

/-- The codes of `V`, fifteen times: the greatest tag (41_decode.md R111). -/
def Tests.fifteenV : List Byte := List.replicate 15 0x56#8

/-- A machine off reset, ready, with one due response and one that waits, and the request `ENCODE 14, 0` presented. -/
def Tests.busy (rspReady : Bool) : State where
  pins := ⟨false, true, encode (.encode 14 0), rspReady⟩
  port := .ready
  holdOff := false
  seen := []
  pending := [⟨pairResponse (88, 42887097), 0⟩, ⟨failRD .invalidTagCharacter, 3⟩]
  taken := [tagResponse [0x30#8]]
  free := 7

/-- A machine off reset with nothing in flight and the request `ENCODE 14, 0` presented for the first time. -/
def Tests.idle (port : Port) (rspReady : Bool) : State :=
  { Tests.busy rspReady with port := port, pending := [] }

/-! ### Well-formedness -/

theorem test_wf_refuses_fourteen_fields : (Instr.decode 3 (List.replicate 14 0x30#8)).wf = false := by decide
theorem test_wf_refuses_sixteen_fields : (Instr.decode 3 (List.replicate 16 0x30#8)).wf = false := by decide
theorem test_wf_accepts_every_length : ∀ n : BitVec 4, (Instr.decode n Tests.fifteenV).wf = true := by decide
theorem test_wf_accepts_encode : (Instr.encode 0xFFFFFFFF 0).wf = true := by decide

/-! ### Decoding. The words are written out from 30_encoding.md R51 and R52; the others are REQ columns of 95_test_vectors.md. -/

/-- From the left: HIGH, LOW, OP. -/
theorem test_decode_encode_bits :
    decodeReq 0b00000000001011111100010101110000_00000000000000000000000000001001_0 = .encode 9 3130736 := by decide
/-- From the left: CH[1], CH[0], TLEN, OP. -/
theorem test_decode_decode_bits :
    decodeReq 0b00100001_00110010_0010_1 = .decode 2 ([0x32#8, 0x21#8] ++ List.replicate 13 0#8) := by decide
/-- V-E13: every byte of both operands is different. -/
theorem test_decode_vE13 : decodeReq 0x13579BDE02468ACF0 = .encode 0x12345678 0x9ABCDEF0 := by decide
/-- CH[14] stands in the highest bits. -/
theorem test_decode_last_character :
    (decodeReq (BitVec.ofNat 125 (0x43 * 2 ^ 117 + 31))) = .decode 15 (List.replicate 14 0#8 ++ [0x43#8]) := by decide
theorem test_encode_word_vE10 : encode (.encode 9 3130736) = 0x0005F8AE000000012 := by
  decide +kernel
theorem test_table_encode : decodeTableWord 65 0x0005F8AE000000012 = some (.encode 9 3130736) := by decide +kernel
theorem test_table_decode :
    decodeTableWord 125 0x42643 = some (.decode 1 ([0x32#8, 0x21#8] ++ List.replicate 13 0#8)) := by decide +kernel
theorem test_decode_no_byte : decodeBytes [] = .error .noOpBit := by decide
theorem test_decode_truncated : decodeBytes (List.replicate 8 0#8) = .error .truncated := by decide +kernel
theorem test_decode_truncated_decode : decodeBytes (1#8 :: List.replicate 14 0#8) = .error .truncated := by
  decide +kernel
theorem test_decode_wider : decodeBytes (List.replicate 15 0#8 ++ [0x20#8]) = .error .widerThanBus := by decide +kernel

/-! ### Steps, from the vectors of 95_test_vectors.md -/

theorem test_step_vE10 :
    Tests.packedAnswers (step (State.reset.withFetchWord 65 0x0005F8AE000000012)) = [0x1491D4154E1311D460] := by
  decide +kernel
theorem test_step_vE13 :
    Tests.packedAnswers (step (State.reset.withFetchWord 65 0x13579BDE02468ACF0)) = [0x11D1D316565314544E140E2C] := by
  decide +kernel
/-- V-D4: a `#` in the middle. -/
theorem test_step_vD4 :
    Tests.packedAnswers (step (State.reset.withFetchWord 125 0x8E468EAAAA647098A2475)) = [0xBAF91060] := by
  decide +kernel
/-- V-D25: an invalid character. -/
theorem test_step_vD25 :
    Tests.packedAnswers (step (State.reset.withFetchWord 125 0x8E428EAAAA647098A2475)) = [2] := by decide +kernel

/-! ### Witnesses: concrete states and operands that meet the hypotheses of the obligations -/

theorem witness_decode_of_encode :
    (Instr.encode 0xFFFFFFFF 0x80000001).WellFormed ∧ (Instr.decode 15 Tests.fifteenV).WellFormed := by decide

theorem witness_encode_of_decode : reqOp 0x42643 = true ∧ reqOp 0x13579BDE02468ACF0 = false := by decide

theorem witness_d_format :
    (Instr.decode 0 Tests.fifteenV).WellFormed ∧ (Instr.decode 15 Tests.fifteenV).WellFormed ∧
      ([] : List Byte).length ≤ 15 ∧ Tests.fifteenV.length ≤ 15 ∧
      Tests.fifteenV.take (1#4).toNat = ([0x56#8, 0x21#8] : List Byte).take (1#4).toNat := by decide

theorem witness_every_word : (0x12#125).getLsbD 0 = false ∧ (0x42643#125).getLsbD 0 = true := by decide

theorem witness_ignored_bits :
    (reqOp (2 ^ 124 + 0x12) = false ∧
        ((2 ^ 124 + 0x12 : ReqWord).extractLsb' 0 65 = (0x12 : ReqWord).extractLsb' 0 65)) ∧
      reqOp 0x42643 = true ∧ reqOp 0x643 = true ∧ reqTlen 0x42643 = reqTlen 0x643 ∧
      ∀ k < (reqTlen 0x42643).toNat, reqCh 0x42643 k = reqCh 0x643 k := by decide +kernel

theorem witness_failure : decodeTag [0x41#8] = .error .invalidTagCharacter := by decide

theorem witness_step_runs :
    (Tests.busy false).accepts = true ∧ (Tests.busy false).seen = [] ∧
      decodeReq (Tests.busy false).pins.req = .encode 14 0 ∧ (Instr.encode 14 0).WellFormed := by decide +kernel

theorem witness_reset :
    ((Tests.busy false).drive ⟨true, true, 0, true⟩).pins.rst = true ∧ (Tests.busy false).pins.rst = false ∧
      (Tests.busy false).pins.reqValid = true := by decide

/-- A combinational LTC answers at once: the packed response of `ENCODE 14, 0`, the tag `20` (40_encode.md R84). -/
theorem test_through_shows_response :
    (Tests.idle .through false).rsp = some (BitVec.ofNat 94 (2 * 2 ^ 2 + 0x32 * 2 ^ 6 + 0x30 * 2 ^ 14)) ∧
      (Tests.idle .through false).reqReady = false := by decide +kernel

/-- A combinational LTC answers the word on `REQ` now, also where others stood there before. -/
theorem test_through_ignores_earlier_words :
    { Tests.idle .through false with seen := [1, 2] }.presented = some (tagResponse [0x32#8, 0x30#8]) := by
  decide +kernel

/-- A response of an accepted request, and one a combinational LTC shows before acceptance. -/
theorem witness_response_holds :
    ((Tests.busy false).rspValid = true ∧ (Tests.busy false).pins.rspReady = false ∧ (Tests.busy false).pending ≠ []) ∧
      (Tests.idle .through false).rspValid = true ∧ (Tests.idle .through false).pins.rspReady = false ∧
      (Tests.idle .through false).pins.reqValid = true := by
  decide +kernel

theorem witness_response_taken :
    (Tests.busy true).rspValid = true ∧ (Tests.busy true).pins.rspReady = true ∧
      ¬((Tests.busy false).rspValid = true ∧ (Tests.busy false).pins.rspReady = true) := by decide +kernel

theorem witness_combinational :
    ∀ b : Bool, (Tests.idle .through b).port = .through ∧ (Tests.idle .through b).pending = [] ∧
      (Tests.idle .through b).holdOff = false ∧
      (Tests.idle .through b).pins.rst = false ∧ (Tests.idle .through b).pins.reqValid = true := by decide

theorem witness_zero_latency :
    (Tests.idle .through true).accepts = true ∧ (Tests.idle .ready true).accepts = true ∧
      (Tests.idle .ready false).accepts = true ∧ (Tests.idle .ready false).pending = [] ∧
      (Tests.idle .ready false).seen = [] := by decide

/-- A run without a reset along which a request is accepted. -/
theorem witness_run :
    (∀ p ∈ [(Tests.busy true).pins], p.rst = false) ∧
      acceptedAlong [(Tests.busy true).pins] (Tests.busy true) = [.encode 14 0] := by decide +kernel

theorem witness_answered :
    (∀ p ∈ List.replicate 5 (Tests.busy true).pins, p.rst = false ∧ p.rspReady = true) ∧
      (Tests.busy true).edgesOwed ≤ (List.replicate 5 (Tests.busy true).pins).length := by decide

/-- Also where another word was presented before. -/
theorem witness_changed_request :
    (Tests.busy true).accepts = true ∧ { Tests.busy true with seen := [1, 2] }.accepts = true := by decide

theorem witness_held_request :
    (Tests.busy true).seen = [] ∧
      (∀ p ∈ [(Tests.busy true).pins], p.reqValid = true ∧
        canonicalWord p.req = canonicalWord (2 ^ 124 + encode (.encode 14 0))) ∧
      Instr.encode 14 0 ∈ acceptedAlong [(Tests.busy true).pins] (Tests.busy true) := by decide +kernel

/-- An invariant state with responses in flight and taken, and its step. -/
theorem witness_invariant :
    (∀ r ∈ (Tests.busy true).answered, r.legal = true) ∧ ∃ t, step (Tests.busy true) = .next t :=
  ⟨by decide +kernel, _, rfl⟩

theorem reset_inv : State.reset.Inv := by simp [State.Inv, State.answered, State.reset]

/-- The empty tag and the longest one. -/
theorem witness_decode_pair :
    lookup (normalise (Tests.fifteenV.take (0#4).toNat)) = ([] : List Nat).map some ∧
      lookup (normalise (Tests.fifteenV.take (15#4).toNat)) = (List.replicate 15 13).map some := by decide +kernel

/-- A bad character first, and one last. -/
theorem witness_decode_invalid :
    0x41#8 ∈ normalise (([0x61#8, 0x32#8] : List Byte).take (2#4).toNat) ∧ 0x41#8 ∉ alpha ∧
      0xFF#8 ∈ normalise (([0x32#8, 0xFF#8] : List Byte).take (2#4).toNat) ∧ 0xFF#8 ∉ alpha := by decide

theorem witness_uppercase :
    (0x61 ≤ (0x61#8).toNat ∧ (0x61#8).toNat ≤ 0x7A) ∧ (0x61 ≤ (0x7A#8).toNat ∧ (0x7A#8).toNat ≤ 0x7A) ∧
      (0x60#8).toNat < 0x61 ∧ 0x7A < (0x7B#8).toNat ∧ 0 < ([0x61#8] : List Byte).length := by decide

theorem witness_base_fourteen :
    (∀ d ∈ [1, 0], d ≤ 13) ∧
      ((List.range [1, 0].length).map fun k => [1, 0].getD k 0 * 14 ^ ([1, 0].length - 1 - k)).sum = 14 ∧
      0 < 14 ∧ [1, 0].headD 0 ≠ 0 ∧
      ((List.range [0].length).map fun k => [0].getD k 0 * 14 ^ ([0].length - 1 - k)).sum = 0 := by decide

theorem witness_digit_count : eTotal 0 0 = 0 ∧ eTotal 1 0 ≠ 0 ∧ eTotal 4294967295 4294967295 ≠ 0 := by decide +kernel

theorem witness_sum_of_powers :
    lookup [0x32#8, 0x30#8] = [1, 0].map some ∧
      dTotal (Tests.fifteenV.take (15#4).toNat) = .ok 155568095557812223 := by decide +kernel

/-- The greatest total, the greatest total without a high part, and the next one. -/
theorem witness_split :
    dTotal (Tests.fifteenV.take (15#4).toNat) = .ok 155568095557812223 ∧
      dTotal (([0x32#8, 0x50#8, 0x39#8] : List Byte).take (3#4).toNat) = .ok 255 ∧ 255 < 256 ∧
      dTotal (([0x32#8, 0x50#8, 0x50#8] : List Byte).take (3#4).toNat) = .ok 256 := by decide +kernel

/-- `Oq` and `q`. -/
theorem witness_leading_zeros :
    normalise [0x4F#8, 0x71#8] = List.replicate 1 0x30#8 ++ [0x51#8] ∧
      normalise [0x71#8] = List.replicate 0 0x30#8 ++ [0x51#8] := by decide

/-- `low` on both sides of 256. -/
theorem witness_round_trip :
    respond (.encode 255 0) = tagResponse [0x32#8, 0x50#8, 0x39#8] ∧
      respond (.encode 256 0) = tagResponse [0x32#8, 0x50#8, 0x50#8] ∧
      ([0x32#8, 0x50#8, 0x50#8] : List Byte).length ≤ 11 := by decide +kernel

/-- A tag of ten digits, a canonical one and one that does not fit the operand. -/
theorem witness_encode_after_decode :
    respond (tagRequest (List.replicate 10 0x56#8)) = .rd .ok 255 1129900995 ∧
      (1129900995#50).toNat ≤ 2 ^ 32 - 1 ∧ (canonicalSpelling (normalise (List.replicate 10 0x56#8))).length ≤ 10 ∧
      canonicalTag (List.replicate 10 0x56#8) = true ∧
      respond (tagRequest Tests.fifteenV) = .rd .ok 255 607687873272703 := by decide +kernel

end Sys2Proof.Machine
end

section
/-!
Proofs about the encoding: how a field and an array of character codes lie in a packed word.
-/

namespace Sys2Proof.Machine

/-! ### Fields of a packed word -/

/-- A field is the digit of the word's number at the field's place. -/
theorem extractLsb'_ofNat_eq {n start len v : Nat} {f : BitVec len} (hw : start + len ≤ n)
    (h : v / 2 ^ start % 2 ^ len = f.toNat) : (BitVec.ofNat n v).extractLsb' start len = f := by
  apply BitVec.eq_of_toNat_eq
  have hn : n - start = len + (n - start - len) := by omega
  rw [BitVec.extractLsb'_toNat, BitVec.toNat_ofNat, Nat.shiftRight_eq_div_pow, ← h,
    show n = start + (n - start) by omega, pow_add, Nat.mod_mul_right_div_self, hn, pow_add,
    Nat.mod_mul_right_mod]

/-- The bits of a word at a field's place are the field's. -/
theorem getLsbD_of_extractLsb'_eq {n start len k : Nat} {w : BitVec n} {f : BitVec len}
    (h : w.extractLsb' start len = f) (hk : k < len) : w.getLsbD (start + k) = f.getLsbD k := by
  simp [← h, hk]

/-! ### Arrays of character codes (20_memory.md R35) -/

/-- The array as the sum that the number formulas of 30_encoding.md R52 and R53 have. -/
theorem packChars_take_mul_eq_sum (cs : List Byte) (n s : Nat) :
    packChars (cs.take n) * 2 ^ s = ((List.range n).map fun k => (cs.getD k 0#8).toNat * 2 ^ (s + 8 * k)).sum := by
  induction n generalizing cs s with
  | zero => simp [packChars]
  | succ n ih =>
    cases cs with
    | nil => simp [packChars]
    | cons c cs =>
      have hplace : ∀ k, s + 8 * k.succ = s + 8 + 8 * k := by omega
      have htail : packChars (cs.take n) * 2 ^ (s + 8) = 256 * packChars (cs.take n) * 2 ^ s := by ring
      simp only [List.take_succ_cons, packChars, List.range_succ_eq_map, List.map_cons, List.map_map, List.sum_cons,
        Function.comp_def, List.getD_cons_succ, List.getD_cons_zero, hplace, ← ih, htail]
      ring

@[simp] theorem packChars_replicate_zero (n : Nat) : packChars (List.replicate n 0#8) = 0 := by
  induction n with
  | zero => rfl
  | succ n ih => simp [List.replicate_succ, packChars, ih]

/-- A word of `s` header bits and an array above them holds its number uncut. -/
theorem toNat_ofNat_headed_array {n s h : Nat} {cs : List Byte} (hh : h < 2 ^ s) (hw : s + 8 * cs.length ≤ n) :
    (BitVec.ofNat n (h + packChars cs * 2 ^ s)).toNat = h + packChars cs * 2 ^ s := by
  have hcs : packChars cs + 1 ≤ 2 ^ (8 * cs.length) := by simpa [pow_mul] using packChars_lt cs
  have hlt : h + packChars cs * 2 ^ s < 2 ^ n :=
    calc h + packChars cs * 2 ^ s < (packChars cs + 1) * 2 ^ s := by rw [add_mul]; omega
      _ ≤ 2 ^ (8 * cs.length) * 2 ^ s := Nat.mul_le_mul_right _ hcs
      _ = 2 ^ (s + 8 * cs.length) := by rw [← pow_add, Nat.add_comm]
      _ ≤ 2 ^ n := Nat.pow_le_pow_right (by decide) hw
  rw [BitVec.toNat_ofNat, Nat.mod_eq_of_lt hlt]

/-- In such a word element `k` of the array stands `8k` bits above the header. -/
theorem extractLsb'_ofNat_headed_array {n s h k : Nat} (cs : List Byte) (hh : h < 2 ^ s) (hw : s + 8 * k + 8 ≤ n) :
    (BitVec.ofNat n (h + packChars cs * 2 ^ s)).extractLsb' (s + 8 * k) 8 = cs.getD k 0#8 := by
  apply extractLsb'_ofNat_eq hw
  have hdiv : (h + packChars cs * 2 ^ s) / 2 ^ s = packChars cs := by
    rw [Nat.add_mul_div_right _ _ (Nat.two_pow_pos s), Nat.div_eq_of_lt hh, Nat.zero_add]
  rw [pow_add, ← Nat.div_div_eq_div_mul, hdiv, pow_mul]
  exact packChars_digit cs k

/-! ### Zero fill (40_encode.md R82) -/

theorem zeroFill_length {n : Nat} {cs : List Byte} (h : cs.length ≤ n) : (zeroFill n cs).length = n := by
  simp [zeroFill, h]

@[simp] theorem zeroFill_take_length (n : Nat) (cs : List Byte) : (zeroFill n cs).take cs.length = cs := by
  simp [zeroFill]

/-- Nothing but zeros follows the given elements. -/
theorem zeroFill_getD_of_le (n : Nat) {cs : List Byte} {k : Nat} (h : cs.length ≤ k) :
    (zeroFill n cs).getD k 0#8 = 0#8 := by
  rw [zeroFill, List.getD_append_right _ _ _ _ h, List.getD_eq_getElem?_getD,
    List.getElem?_getD_replicate_default_eq]

theorem tagRequest_eq_zeroFill (tag : List Byte) :
    tagRequest tag = .decode (BitVec.ofNat 4 tag.length) (zeroFill Config.tagMax tag) := rfl

theorem toNat_ofNat_four {n : Nat} (h : n ≤ 15) : (BitVec.ofNat 4 n).toNat = n := by
  rw [BitVec.toNat_ofNat]
  omega

/-! ### The E-format word (30_encoding.md R51) -/

theorem encode_encode_toNat (low high : Operand) :
    (encode (.encode low high)).toNat = low.toNat * 2 ^ 1 + high.toNat * 2 ^ 33 := by
  rw [encode, BitVec.toNat_ofNat, Nat.mod_eq_of_lt (by omega)]

@[simp] theorem reqLow_encode (low high : Operand) : reqLow (encode (.encode low high)) = low :=
  extractLsb'_ofNat_eq (by decide) (by omega)

@[simp] theorem reqHigh_encode (low high : Operand) : reqHigh (encode (.encode low high)) = high :=
  extractLsb'_ofNat_eq (by decide) (by omega)

/-- Settles O4: the word holds its number uncut, and the bits of an operand are those of its field. -/
theorem eFormatWordLayout : Obligations.EFormatWordLayout := by
  intro low high
  refine ⟨?number, (Laws.OpBit.encode low high).1, ?low, ?high⟩
  case number => rw [encode_encode_toNat, Nat.zero_add]
  case low => exact fun k hk => getLsbD_of_extractLsb'_eq (reqLow_encode low high) hk
  case high => exact fun k hk => getLsbD_of_extractLsb'_eq (reqHigh_encode low high) hk

/-! ### The D-format word (30_encoding.md R52) -/

theorem Instr.wellFormed_decode_iff (tlen : BitVec 4) (ch : List Byte) :
    (Instr.decode tlen ch).WellFormed ↔ ch.length = 15 := by
  simp [Instr.WellFormed, Instr.wf, Config.tagMax]

theorem encode_decode_toNat (tlen : BitVec 4) (ch : List Byte) :
    (encode (.decode tlen ch)).toNat = 1 + tlen.toNat * 2 ^ 1 + packChars (ch.take 15) * 2 ^ 5 :=
  toNat_ofNat_headed_array (by omega) (by simp only [List.length_take, Config.tagMax]; omega)

@[simp] theorem reqTlen_encode (tlen : BitVec 4) (ch : List Byte) : reqTlen (encode (.decode tlen ch)) = tlen :=
  extractLsb'_ofNat_eq (by decide) (by omega)

theorem reqCh_encode (tlen : BitVec 4) {ch : List Byte} (hch : ch.length = 15) {k : Nat} (hk : k < 15) :
    reqCh (encode (.decode tlen ch)) k = ch.getD k 0#8 := by
  have htake : ch.take Config.tagMax = ch := List.take_of_length_le hch.le
  rw [encode, htake]
  exact extractLsb'_ofNat_headed_array ch (by omega) (by omega)

/-- The canonical request of a tag is the D-format request that carries the tag and zeros after it. -/
theorem tagRequest_layout {tag : List Byte} (h : tag.length ≤ 15) :
    ∃ tlen ch, tagRequest tag = .decode tlen ch ∧ (Instr.decode tlen ch).WellFormed ∧ tlen.toNat = tag.length ∧
      ch.take tlen.toNat = tag ∧ ∀ k, tlen.toNat ≤ k → ch.getD k 0#8 = 0 := by
  refine ⟨_, _, tagRequest_eq_zeroFill tag, (Instr.wellFormed_decode_iff _ _).mpr (zeroFill_length h), ?_⟩
  rw [toNat_ofNat_four h]
  exact ⟨rfl, zeroFill_take_length _ tag, fun k hk => zeroFill_getD_of_le _ hk⟩

/-- DECODE answers from the characters below `TLEN` alone (30_encoding.md R55, R57). -/
theorem respond_decode_congr {tlen : BitVec 4} {ch ch' : List Byte} (h : ch.take tlen.toNat = ch'.take tlen.toNat) :
    respond (.decode tlen ch) = respond (.decode tlen ch') :=
  congrArg decodeResponse h

/-- Settles O5, from the layout of a header with an array above it. -/
theorem dFormatWordLayout : Obligations.DFormatWordLayout := by
  refine ⟨fun tlen ch hwf => ?_, fun tag h => tagRequest_layout h, fun tlen ch ch' h => respond_decode_congr h⟩
  have hch : ch.length = 15 := (Instr.wellFormed_decode_iff tlen ch).mp hwf
  refine ⟨?number, (Laws.OpBit.decode tlen ch).1, reqTlen_encode tlen ch, fun k hk => reqCh_encode tlen hch hk⟩
  case number => rw [encode_decode_toNat, packChars_take_mul_eq_sum]

/-! ### The RE-format word (30_encoding.md R53) -/

theorem pack_re_toNat (st : Status) (olen : BitVec 4) (och : List Byte) :
    (Response.re st olen och).pack.toNat =
      st.code.toNat + olen.toNat * 2 ^ 2 + packChars (och.take 11) * 2 ^ 6 :=
  toNat_ofNat_headed_array (by omega) (by simp only [List.length_take, Config.odig]; omega)

theorem pack_re_status (st : Status) (olen : BitVec 4) (och : List Byte) :
    (Response.re st olen och).pack.extractLsb' 0 2 = st.code :=
  extractLsb'_ofNat_eq (by decide) (by omega)

theorem pack_re_olen (st : Status) (olen : BitVec 4) (och : List Byte) :
    (Response.re st olen och).pack.extractLsb' 2 4 = olen :=
  extractLsb'_ofNat_eq (by decide) (by omega)

theorem pack_re_och (st : Status) (olen : BitVec 4) {och : List Byte} (hoch : och.length = 11) {k : Nat}
    (hk : k < 11) : (Response.re st olen och).pack.extractLsb' (6 + 8 * k) 8 = och.getD k 0#8 := by
  have htake : och.take Config.odig = och := List.take_of_length_le hoch.le
  rw [Response.pack, htake]
  exact extractLsb'_ofNat_headed_array och (by omega) (by omega)

/-! ### The tag of ENCODE: its total and its length (40_encode.md R75 to R80) -/

@[simp] theorem seqOf_length (low high : Nat) : (seqOf low high).length = 8 := by
  simp [seqOf, interleave]

/-- The length check never fails (40_encode.md R75), so ENCODE always emits a tag. -/
theorem encodeTag_eq_ok (low high : Nat) : encodeTag low high = .ok (subst (digits low high)) := by
  simp [encodeTag, lengthCheck, Config.seqLen]

/-- Folding the bytes of an operand gives the operand (40_encode.md R77). -/
theorem fold_repack {v : Nat} (h : v < 2 ^ 32) : fold (repack v) = v := by
  simp only [repack_eq, fold, Config.limbMul, List.foldl_cons, List.foldl_nil]
  omega

/-- The total of two operands (40_encode.md R78). -/
theorem eTotal_eq {low high : Nat} (hl : low < 2 ^ 32) (hh : high < 2 ^ 32) : eTotal low high = low + 256 * high := by
  have hlow : (seqOf low high).take 4 = repack low := List.take_left' (repack_length low)
  have hhigh : ((seqOf low high).drop 4).take 4 = repack high := by
    rw [seqOf, interleave, List.drop_left' (repack_length low)]
    exact List.take_of_length_le (repack_length high).le
  rw [eTotal, combine, lowLimb, highLimb, hlow, hhigh, fold_repack hl, fold_repack hh, Config.limbMul, Nat.mul_comm]

/-- Every number has a digit. -/
theorem digitsOf_length_pos {b : Nat} (hb : 1 < b) (t : Nat) : 1 ≤ (digitsOf b t).length := by
  rw [digitsOf_eq b t hb]
  split
  case isTrue => exact le_rfl
  case isFalse ht =>
    rw [List.length_reverse]
    exact List.length_pos_iff.mpr (Nat.digits_ne_nil_iff_ne_zero.mpr ht)

/-- A number below `b ^ n` has at most `n` digits, one of them even if it is 0. -/
theorem digitsOf_length_le {b n t : Nat} (hb : 1 < b) (hn : 1 ≤ n) (ht : t < b ^ n) : (digitsOf b t).length ≤ n := by
  rw [digitsOf_eq b t hb]
  split
  case isTrue => exact hn
  case isFalse => rwa [List.length_reverse, Nat.digits_length_le_iff hb]

/-- A tag has 1 to 11 characters (40_encode.md R80): the greatest total is below `14 ^ 11`. -/
theorem tag_length_bounds (low high : Operand) :
    1 ≤ (subst (digits low.toNat high.toNat)).length ∧ (subst (digits low.toNat high.toNat)).length ≤ 11 := by
  have hlt : eTotal low.toNat high.toNat < Config.radix ^ 11 := by
    rw [eTotal_eq low.isLt high.isLt, Config.radix]
    omega
  rw [subst, List.length_map]
  exact ⟨digitsOf_length_pos (by decide) _, digitsOf_length_le (by decide) (by decide) hlt⟩

/-- ENCODE answers with its tag. -/
theorem respond_encode (low high : Operand) :
    respond (.encode low high) = tagResponse (subst (digits low.toNat high.toNat)) := by
  rw [respond, encodeResponse, encodeTag_eq_ok, reResponse_ok]

/-- Settles O8: every ENCODE response is the zero-filled tag of 1 to 11 characters, and the failure responses are
arrays of zeros, in the layout of a header with an array above it. -/
theorem reFormatWordLayout : Obligations.REFormatWordLayout := by
  constructor
  · intro low high
    obtain ⟨hpos, hle⟩ := tag_length_bounds low high
    rw [respond_encode]
    generalize htag : subst (digits low.toNat high.toNat) = tag at hpos hle
    have holen : (BitVec.ofNat 4 tag.length).toNat = tag.length := toNat_ofNat_four (by omega)
    have hoch : (zeroFill Config.odig tag).length = 11 := zeroFill_length hle
    refine ⟨tag, BitVec.ofNat 4 tag.length, zeroFill Config.odig tag, ?emitted, rfl, hoch, holen, ?take, by omega,
      by omega, ?fill, ?number, pack_re_status _ _ _, pack_re_olen _ _ _, fun k hk => pack_re_och _ _ hoch hk⟩
    case emitted => rw [encodeTag_eq_ok, htag]
    case take => rw [holen, zeroFill_take_length]
    case fill => exact fun k hk => zeroFill_getD_of_le _ (holen ▸ hk)
    case number => rw [tagResponse, pack_re_toNat, packChars_take_mul_eq_sum]
  · intro k
    have hoch : (List.replicate Config.odig 0#8).length = 11 := List.length_replicate
    refine ⟨?number, pack_re_status _ _ _, pack_re_olen _ _ _, ?zeros⟩
    case number => simp [failRE, pack_re_toNat, Status.code]
    case zeros =>
      intro j hj
      rw [failRE, pack_re_och _ _ hoch hj]
      exact List.getD_replicate _ hj

/-! ### The RD-format word (30_encoding.md R54) -/

theorem pack_rd_toNat (st : Status) (lowOut : BitVec 8) (highOut : BitVec 50) :
    (Response.rd st lowOut highOut).pack.toNat =
      st.code.toNat + lowOut.toNat * 2 ^ 2 + highOut.toNat * 2 ^ 10 := by
  rw [Response.pack, BitVec.toNat_ofNat, Nat.mod_eq_of_lt (by omega)]

theorem pack_rd_status (st : Status) (lowOut : BitVec 8) (highOut : BitVec 50) :
    (Response.rd st lowOut highOut).pack.extractLsb' 0 2 = st.code :=
  extractLsb'_ofNat_eq (by decide) (by omega)

theorem pack_rd_lowOut (st : Status) (lowOut : BitVec 8) (highOut : BitVec 50) :
    (Response.rd st lowOut highOut).pack.extractLsb' 2 8 = lowOut :=
  extractLsb'_ofNat_eq (by decide) (by omega)

theorem pack_rd_highOut (st : Status) (lowOut : BitVec 8) (highOut : BitVec 50) :
    (Response.rd st lowOut highOut).pack.extractLsb' 10 50 = highOut :=
  extractLsb'_ofNat_eq (by decide) (by omega)

/-- The RD format leaves the bus above it 0 (30_encoding.md R50). -/
theorem pack_rd_above (st : Status) (lowOut : BitVec 8) (highOut : BitVec 50) :
    (Response.rd st lowOut highOut).pack.extractLsb' 60 34 = 0#34 :=
  extractLsb'_ofNat_eq (by decide) (by rw [BitVec.toNat_zero]; omega)

/-! ### The total of DECODE and its bound (41_decode.md R106, R107) -/

/-- Where ACCUM succeeds, every character has an index. -/
theorem map_index_of_accumLoop_ok {cs : List Byte} {i total t : Nat} (h : accumLoop cs i total = .ok t) :
    ∃ ds : List Nat, cs.map index = ds.map some := by
  induction cs generalizing i total with
  | nil => exact ⟨[], rfl⟩
  | cons c cs ih =>
    unfold accumLoop at h
    split at h
    case h_1 => cases h
    case h_2 d hd =>
      obtain ⟨ds, hds⟩ := ih h
      exact ⟨d :: ds, by rw [List.map_cons, hd, hds, List.map_cons]⟩

theorem lt_of_map_index_eq {cs : List Byte} {ds : List Nat} (h : cs.map index = ds.map some) :
    ∀ d ∈ ds, d < 14 := by
  intro d hd
  have hmem : some d ∈ cs.map index := h ▸ List.mem_map_of_mem hd
  obtain ⟨c, -, hc⟩ := List.mem_map.mp hmem
  exact (index_eq_some c d hc).1

/-- A total of `n` characters is below `14 ^ n`. -/
theorem accum_lt {nch : List Byte} {t : Nat} (h : accum nch = .ok t) : t < 14 ^ nch.length := by
  obtain ⟨ds, hds⟩ := map_index_of_accumLoop_ok h
  have ht : t = Nat.ofDigits 14 ds := by
    rw [accum, accumLoop_ok _ ds hds] at h
    simpa using (Except.ok.inj h).symm
  have hlen : ds.length = nch.length := by simpa using (congrArg List.length hds).symm
  rw [ht, ← hlen]
  exact Nat.ofDigits_lt_base_pow_length (by decide) (lt_of_map_index_eq hds)

theorem dTotal_eq_accum (tag : List Byte) : dTotal tag = accum (normalise tag) := by
  unfold dTotal trunc
  split <;> simp [*]

/-- NORM does not lengthen the tag, so the bound holds for its length as presented. -/
theorem dTotal_lt {tag : List Byte} {t n : Nat} (h : dTotal tag = .ok t) (hn : tag.length ≤ n) : t < 14 ^ n := by
  rw [dTotal_eq_accum] at h
  exact (accum_lt h).trans_le (Nat.pow_le_pow_right (by decide) ((normalise_length_le tag).trans hn))

theorem respond_decode_of_error {tlen : BitVec 4} {ch : List Byte} {k : ErrorKind}
    (h : dTotal (ch.take tlen.toNat) = .error k) : respond (.decode tlen ch) = failRD k := by
  simp [respond, decodeResponse, presentedTag, decodeTag, h]

theorem respond_decode_of_ok {tlen : BitVec 4} {ch : List Byte} {t : Nat}
    (h : dTotal (ch.take tlen.toNat) = .ok t) : respond (.decode tlen ch) = pairResponse (splitTotal t) := by
  simp [respond, decodeResponse, presentedTag, decodeTag, h]

/-- The two outputs of a total of at most 15 characters fit their fields (41_decode.md R109). -/
theorem splitTotal_fits {t : Nat} (h : t < 14 ^ 15) :
    (BitVec.ofNat 8 (splitTotal t).1).toNat = t % 256 ∧ (BitVec.ofNat 50 (splitTotal t).2).toNat = t / 256 := by
  simp only [splitTotal, Config.limbMul, BitVec.toNat_ofNat]
  omega

/-- What DECODE answers, by its total: zeros with the error's code, or the two parts of the total. -/
theorem respond_decode_fields (tlen : BitVec 4) (ch : List Byte) :
    ∃ st lowOut highOut, respond (.decode tlen ch) = .rd st lowOut highOut ∧
      (st ≠ .ok → lowOut = 0 ∧ highOut = 0) ∧
      ∀ t, dTotal (ch.take tlen.toNat) = .ok t → st = .ok ∧ lowOut.toNat = t % 256 ∧ highOut.toNat = t / 256 := by
  cases h : dTotal (ch.take tlen.toNat) with
  | error k => exact ⟨.failed k, 0, 0, respond_decode_of_error h, fun _ => ⟨rfl, rfl⟩, fun _ ht => nomatch ht⟩
  | ok t =>
    have hlen : (ch.take tlen.toNat).length ≤ 15 := (List.length_take_le _ _).trans (Nat.le_of_lt_succ tlen.isLt)
    refine ⟨.ok, _, _, respond_decode_of_ok h, fun hne => absurd rfl hne, fun t' ht => ?_⟩
    cases ht
    exact ⟨rfl, splitTotal_fits (dTotal_lt h hlen)⟩

/-- Settles O9: what DECODE answers, and the layout of every RD-format word. -/
theorem rdFormatWordLayout : Obligations.RDFormatWordLayout := by
  intro tlen ch
  obtain ⟨st, lowOut, highOut, hresp, hzero, htotal⟩ := respond_decode_fields tlen ch
  refine ⟨st, lowOut, highOut, hresp, hzero, htotal, ?_⟩
  rw [hresp]
  exact ⟨pack_rd_toNat st lowOut highOut, pack_rd_status st lowOut highOut, pack_rd_lowOut st lowOut highOut,
    pack_rd_highOut st lowOut highOut, pack_rd_above st lowOut highOut⟩

end Sys2Proof.Machine
end

section
/-!
Proofs about ENCODE (40_encode.md): what each stage from REPACK to B14 computes, and the tag they give together.
-/

namespace Sys2Proof.Machine

/-! ### REPACK (40_encode.md R71 to R73) -/

theorem repack_getD (v : Nat) {j : Nat} (hj : j < 4) :
    (repack v).getD j 0 = 16 * nib v (7 - 2 * j) + nib v (6 - 2 * j) := by
  simp [repack, Config.npair, hj]

/-- Element `j` is the byte of `v` at place `3 - j` (40_encode.md R73). -/
theorem repack_getD_byte (v : Nat) {j : Nat} (hj : j < 4) : (repack v).getD j 0 = v / 256 ^ (3 - j) % 256 := by
  rw [repack_getD v hj, ← nib_pair, show 7 - 2 * j = 2 * (3 - j) + 1 by omega, show 6 - 2 * j = 2 * (3 - j) by omega]

theorem repack_le {v b : Nat} (h : b ∈ repack v) : b ≤ 255 := by
  simp only [repack_eq, List.mem_cons, List.not_mem_nil, or_false] at h
  omega

/-- Digits above the eighth are dropped (40_encode.md R73). -/
theorem repack_mod (v : Nat) : repack (v % 2 ^ 32) = repack v := by
  simp only [repack_eq, List.cons.injEq, and_true]
  omega

/-- The digit at place `k`, 0 beyond the most significant one (00_scope.md R5). -/
theorem digitsOf_reverse_getD {b : Nat} (hb : 1 < b) (t k : Nat) :
    (digitsOf b t).reverse.getD k 0 = t / b ^ k % b := by
  rw [digitsOf_eq b t hb]
  split
  case isTrue ht => cases k <;> simp [ht]
  case isFalse => rw [List.reverse_reverse, Nat.getD_digits t k hb]

theorem pairStep_drop (hex : List Nat) (m : Nat) :
    pairStep (hex.drop m) = (16 * hex.getD (m + 1) 0 + hex.getD m 0, hex.drop (m + 2)) := by
  simp [pairStep, List.headD_eq_head?_getD, List.getD_eq_getElem?_getD]

/-- A pair step on the digits of `v` from place `m` on prepends the byte of the places `m + 1` and `m`. -/
theorem pairSteps_succ_drop (v m n : Nat) (out : List Nat) :
    pairSteps (n + 1) ((digitsOf 16 v).reverse.drop m) out =
      pairSteps n ((digitsOf 16 v).reverse.drop (m + 2)) ((16 * nib v (m + 1) + nib v m) :: out) := by
  rw [pairSteps, pairStep_drop, digitsOf_reverse_getD (by decide), digitsOf_reverse_getD (by decide), nib, nib]

theorem repackByPopping_eq_repack (v : Nat) : repackByPopping v = repack v := by
  rw [repackByPopping, ← List.drop_zero (l := (digitsOf 16 v).reverse), Config.npair]
  simp only [pairSteps_succ_drop]
  rfl

/-- Settles O28: the four pair steps, one after the other. -/
theorem repackByPoppingIsRepack : Obligations.RepackByPoppingIsRepack := by
  refine ⟨fun v => ?stages, fun v n out _ => pairSteps_succ_drop v (2 * (3 - n)) n out, by decide⟩
  case stages =>
    exact ⟨repack_length v, fun b => repack_le, repackByPopping_eq_repack v, fun j => repack_getD v⟩

/-- Settles O29: two hexadecimal digits are one byte, and the places above them are never read. -/
theorem repackIsTheLowFourBytes : Obligations.RepackIsTheLowFourBytes :=
  ⟨fun v => ⟨fun j => repack_getD_byte v, (repack_mod v).symm⟩, by decide⟩

/-! ### INTERLEAVE and the length check (40_encode.md R74, R75) -/

theorem seqOf_take (low high : Nat) : (seqOf low high).take 4 = repack low := List.take_left' (repack_length low)

theorem seqOf_drop (low high : Nat) : (seqOf low high).drop 4 = repack high := List.drop_left' (repack_length low)

theorem lengthCheck_eq_error_iff (seq : List Nat) :
    lengthCheck seq = .error .malformedEncodingInput ↔ seq.length ≠ 8 := by
  rw [lengthCheck, Config.seqLen]
  split <;> simp [*]

/-- Settles O30: both passes have four elements, so the sequence that reaches the check has eight. -/
theorem lengthCheckNeverFails : Obligations.LengthCheckNeverFails := by
  refine ⟨lengthCheck_eq_error_iff, fun low high => ?never, by decide⟩
  case never => exact ⟨repack_length low, repack_length high, seqOf_length low high, encodeTag_eq_ok low high⟩

/-! ### FOLD (40_encode.md R76, R77) -/

theorem fold_four (b0 b1 b2 b3 : Nat) :
    fold [b0, b1, b2, b3] = b0 * 2 ^ 24 + b1 * 2 ^ 16 + b2 * 2 ^ 8 + b3 := by
  simp only [fold, Config.limbMul, List.foldl_cons, List.foldl_nil]
  omega

/-- Appending a byte multiplies by 256 and adds it, as one step of the fold does. -/
theorem toNat_append_byte {n : Nat} (x : BitVec n) (b : Byte) : (x ++ b).toNat = x.toNat * 2 ^ 8 + b.toNat := by
  rw [BitVec.toNat_append, ← Nat.shiftLeft_add_eq_or_of_lt b.isLt, Nat.shiftLeft_eq]

theorem fold_bytes (b0 b1 b2 b3 : Byte) :
    fold [b0.toNat, b1.toNat, b2.toNat, b3.toNat] = (b0 ++ b1 ++ b2 ++ b3).toNat := by
  rw [fold_four, toNat_append_byte, toNat_append_byte, toNat_append_byte]
  ring

theorem take_four_eq_getD {l : List Nat} (h : 4 ≤ l.length) :
    l.take 4 = [l.getD 0 0, l.getD 1 0, l.getD 2 0, l.getD 3 0] :=
  match l, h with
  | _ :: _ :: _ :: _ :: _, _ => rfl

theorem lowLimb_eq_fold_getD (low high : Nat) :
    lowLimb low high = fold [(seqOf low high).getD 0 0, (seqOf low high).getD 1 0,
      (seqOf low high).getD 2 0, (seqOf low high).getD 3 0] := by
  rw [lowLimb, take_four_eq_getD (by simp)]

theorem highLimb_eq_fold_getD (low high : Nat) :
    highLimb low high = fold [(seqOf low high).getD 4 0, (seqOf low high).getD 5 0,
      (seqOf low high).getD 6 0, (seqOf low high).getD 7 0] := by
  rw [highLimb, take_four_eq_getD (by simp)]
  simp [List.getD_eq_getElem?_getD]

/-- Settles O31: Horner's rule on four elements, which on bytes is their concatenation. -/
theorem foldIsTheBigEndianNumber : Obligations.FoldIsTheBigEndianNumber := by
  refine ⟨fold_four, fold_bytes, fun low high => ?limbs, by decide⟩
  case limbs => exact ⟨lowLimb_eq_fold_getD low high, highLimb_eq_fold_getD low high⟩

/-! ### The stages together (40_encode.md R83) -/

/-- Only the low 32 bits survive REPACK and FOLD. -/
theorem fold_repack_eq_mod (v : Nat) : fold (repack v) = v % 2 ^ 32 := by
  rw [← repack_mod, fold_repack (Nat.mod_lt _ (by decide))]

theorem lowLimb_eq_mod (low high : Nat) : lowLimb low high = low % 2 ^ 32 := by
  rw [lowLimb, seqOf_take, fold_repack_eq_mod]

theorem highLimb_eq_mod (low high : Nat) : highLimb low high = high % 2 ^ 32 := by
  rw [highLimb, seqOf_drop, List.take_of_length_le (repack_length high).le, fold_repack_eq_mod]

theorem eTotal_eq_mod (low high : Nat) : eTotal low high = low % 2 ^ 32 + 256 * (high % 2 ^ 32) := by
  rw [eTotal, combine, lowLimb_eq_mod, highLimb_eq_mod, Config.limbMul, Nat.mul_comm]

/-- Settles O32: the limbs are the operands modulo `2 ^ 32`, which are 32-bit operands themselves. -/
theorem stagesTogetherAreTheClosedForm : Obligations.StagesTogetherAreTheClosedForm := by
  refine ⟨fun low high => ⟨?low, ?high, eTotal_eq low.isLt high.isLt⟩,
    fun low high => ⟨lowLimb_eq_mod low high, highLimb_eq_mod low high, eTotal_eq_mod low high, ?tag⟩⟩
  case low => rw [lowLimb_eq_mod, Nat.mod_eq_of_lt low.isLt]
  case high => rw [highLimb_eq_mod, Nat.mod_eq_of_lt high.isLt]
  case tag => rw [encodeTag_eq_ok, digits, eTotal_eq_mod]

/-! ### B14 (40_encode.md R79) -/

/-- `ds` is a spelling of `t` in base `b`, most significant digit first, with no leading zero but for the number 0. -/
abbrev IsSpelling (b t : Nat) (ds : List Nat) : Prop :=
  (∀ d ∈ ds, d < b) ∧ Nat.ofDigits b ds.reverse = t ∧ ((t = 0 ∧ ds = [0]) ∨ (0 < t ∧ ds.headD 0 ≠ 0))

theorem getLast_reverse_eq_headD (ds : List Nat) (h : ds.reverse ≠ []) : ds.reverse.getLast h = ds.headD 0 := by
  cases ds with
  | nil => exact absurd rfl h
  | cons d ds => simp

/-- The model's digits are a spelling. -/
theorem isSpelling_digitsOf {b : Nat} (hb : 1 < b) (t : Nat) : IsSpelling b t (digitsOf b t) := by
  refine ⟨fun d => digitsOf_lt b t d hb, ?_⟩
  rw [digitsOf_eq b t hb]
  split
  case isTrue ht => simp [ht]
  case isFalse ht =>
    have hne : (Nat.digits b t).reverse.reverse ≠ [] := by
      rwa [List.reverse_reverse, Nat.digits_ne_nil_iff_ne_zero]
    refine ⟨by rw [List.reverse_reverse, Nat.ofDigits_digits], Or.inr ⟨Nat.pos_of_ne_zero ht, ?_⟩⟩
    rw [← getLast_reverse_eq_headD _ hne]
    simpa using Nat.getLast_digit_ne_zero b ht

/-- There is no other spelling. -/
theorem IsSpelling.eq_digitsOf {b t : Nat} {ds : List Nat} (hb : 1 < b) (h : IsSpelling b t ds) :
    ds = digitsOf b t := by
  obtain ⟨hlt, rfl, ⟨hzero, rfl⟩ | ⟨hpos, hhead⟩⟩ := h
  · rw [digitsOf_eq _ _ hb, if_pos hzero]
  · have hdigits : Nat.digits b (Nat.ofDigits b ds.reverse) = ds.reverse :=
      Nat.digits_ofDigits b hb _ (fun d hd => hlt d (List.mem_reverse.mp hd))
        (fun hne => by rwa [getLast_reverse_eq_headD])
    rw [digitsOf_eq _ _ hb, if_neg hpos.ne', hdigits, List.reverse_reverse]

/-- The sum of powers of R79 is the library's number of the digits. -/
theorem sum_getD_mul_pow_eq_ofDigits (b : Nat) (ds : List Nat) :
    ((List.range ds.length).map fun k => ds.getD k 0 * b ^ (ds.length - 1 - k)).sum = Nat.ofDigits b ds.reverse := by
  induction ds with
  | nil => rfl
  | cons d ds ih =>
    have hplace : ∀ k, ds.length + 1 - 1 - (k + 1) = ds.length - 1 - k := by omega
    rw [Nat.ofDigits_reverse_cons, ← ih]
    simp only [List.length_cons, List.range_succ_eq_map, List.map_cons, List.map_map, List.sum_cons, Function.comp_def,
      List.getD_cons_zero, List.getD_cons_succ, Nat.succ_eq_add_one, hplace]
    rw [Nat.add_sub_cancel, Nat.sub_zero]
    ring

/-- The properties of 40_encode.md R79 say that a list is a base-14 spelling. -/
theorem isSpelling_radix_iff (t : Nat) (ds : List Nat) :
    IsSpelling Config.radix t ds ↔
      (∀ d ∈ ds, d ≤ 13) ∧ ((List.range ds.length).map fun k => ds.getD k 0 * 14 ^ (ds.length - 1 - k)).sum = t ∧
        ((t = 0 ∧ ds = [0]) ∨ (0 < t ∧ ds.headD 0 ≠ 0)) := by
  simp only [IsSpelling, sum_getD_mul_pow_eq_ofDigits, Config.radix, Nat.lt_succ_iff]

theorem IsSpelling.eq_b14 {t : Nat} {ds : List Nat} (h : IsSpelling Config.radix t ds) : ds = b14 t :=
  h.eq_digitsOf (by decide)

theorem isSpelling_pow (b k : Nat) (hb : 1 < b) : IsSpelling b (b ^ k) (1 :: List.replicate k 0) := by
  refine ⟨?digits, ?number, Or.inr ⟨Nat.pow_pos (by omega), by simp⟩⟩
  case digits =>
    intro d hd
    obtain rfl | hd := List.mem_cons.mp hd
    · exact hb
    · rw [List.eq_of_mem_replicate hd]
      omega
  case number => simp [Nat.ofDigits_append]

theorem ofDigits_replicate_pred (b k : Nat) : Nat.ofDigits (b + 1) (List.replicate k b) + 1 = (b + 1) ^ k := by
  induction k with
  | zero => rfl
  | succ k ih =>
    rw [List.replicate_succ, Nat.ofDigits_cons, pow_succ, ← ih]
    ring

theorem isSpelling_pow_sub_one {b k : Nat} (hb : 0 < b) (hk : 0 < k) :
    IsSpelling (b + 1) ((b + 1) ^ k - 1) (List.replicate k b) := by
  have hpow : 1 < (b + 1) ^ k := Nat.one_lt_pow hk.ne' (by omega)
  refine ⟨?digits, ?number, Or.inr ⟨by omega, ?head⟩⟩
  case digits =>
    intro d hd
    rw [List.eq_of_mem_replicate hd]
    omega
  case number => rw [List.reverse_replicate, ← ofDigits_replicate_pred, Nat.add_sub_cancel]
  case head =>
    obtain ⟨n, rfl⟩ := Nat.exists_eq_succ_of_ne_zero hk.ne'
    exact hb.ne'

/-- Settles O33: B14 is a spelling, and a number has one spelling only. -/
theorem baseFourteenDigitsAreUnique : Obligations.BaseFourteenDigitsAreUnique := by
  refine ⟨fun t => ?spelling, ?unique, ?pow, ?predPow, rfl, (IsSpelling.eq_b14 (by decide)).symm,
    (IsSpelling.eq_b14 (by decide)).symm, (IsSpelling.eq_b14 (by decide)).symm⟩
  case spelling => exact (isSpelling_radix_iff t _).mp (isSpelling_digitsOf (by decide) t)
  case unique => exact fun t ds hdigits hsum hhead => ((isSpelling_radix_iff t ds).mpr ⟨hdigits, hsum, hhead⟩).eq_b14
  case pow => exact fun k => (isSpelling_pow Config.radix k (by decide)).eq_b14.symm
  case predPow => exact fun k hk => (isSpelling_pow_sub_one (b := 13) (by decide) hk).eq_b14.symm

/-! ### NDIG (40_encode.md R80) -/

/-- The number of digits of a number that is not 0. -/
theorem digitsOf_length_eq_iff {b t n : Nat} (hb : 1 < b) (ht : t ≠ 0) :
    (digitsOf b t).length = n ↔ 1 ≤ n ∧ b ^ (n - 1) ≤ t ∧ t < b ^ n := by
  have hpos : 1 ≤ (digitsOf b t).length := digitsOf_length_pos hb t
  rw [digitsOf_eq b t hb, if_neg ht, List.length_reverse] at *
  rw [← Nat.lt_digits_length_iff hb, ← Nat.digits_length_le_iff hb]
  omega

theorem digits_length_bounds (low high : Operand) :
    1 ≤ (digits low.toNat high.toNat).length ∧ (digits low.toNat high.toNat).length ≤ 11 := by
  simpa [subst] using tag_length_bounds low high

/-- The digit count of given operands, read off the powers of 14 around their total. -/
theorem digits_length_eq {low high n : Nat} (hl : low < 2 ^ 32) (hh : high < 2 ^ 32) (hn : 1 ≤ n)
    (hle : 14 ^ (n - 1) ≤ low + 256 * high) (hlt : low + 256 * high < 14 ^ n) : (digits low high).length = n := by
  have hne : low + 256 * high ≠ 0 := (Nat.lt_of_lt_of_le (Nat.pow_pos (by decide)) hle).ne'
  rw [digits, eTotal_eq hl hh]
  exact (digitsOf_length_eq_iff (by decide) hne).mpr ⟨hn, hle, hlt⟩

/-- Settles O34: a number of `n` digits lies between two powers of 14. -/
theorem digitCountOfTheTotal : Obligations.DigitCountOfTheTotal := by
  refine ⟨fun low high => ⟨fun hzero => ?zero, fun hne n => digitsOf_length_eq_iff (by decide) hne,
    digits_length_bounds low high⟩, by decide, by decide, ?greatest, eTotal_eq (by decide) (by decide), ?eight,
    by decide⟩
  case zero => rw [digits, hzero]; rfl
  case greatest | eight => exact digits_length_eq (by decide) (by decide) (by decide) (by decide) (by decide)

/-! ### The responses of the table (40_encode.md R84) -/

/-- ENCODE answers with the characters of the spelling of its total. -/
theorem respond_encode_of_isSpelling {low high : Operand} {ds : List Nat}
    (h : IsSpelling Config.radix (low.toNat + 256 * high.toNat) ds) :
    respond (.encode low high) = tagResponse (subst ds) := by
  rw [respond_encode, digits, eTotal_eq low.isLt high.isLt, h.eq_b14]

/-- Settles O35: the spellings of the totals of the table. -/
theorem encodeCornerCases : Obligations.EncodeCornerCases := by
  refine ⟨?zero, ?thirteen, ?fourteen, ?lowCarry, ?highOne, ?total2092, ?sameTotal, ?greatest, ?greatestLow,
    ?greatestHigh, fun v => ⟨seqOf_take _ _, seqOf_drop _ _⟩, fun low high => ?succeeds⟩
  case zero => exact respond_encode_of_isSpelling (ds := [0]) (by decide)
  case thirteen => exact respond_encode_of_isSpelling (ds := [13]) (by decide)
  case fourteen => exact respond_encode_of_isSpelling (ds := [1, 0]) (by decide)
  case lowCarry | highOne => exact respond_encode_of_isSpelling (ds := [1, 4, 4]) (by decide)
  case total2092 | sameTotal => exact respond_encode_of_isSpelling (ds := [10, 9, 6]) (by decide)
  case greatest => exact respond_encode_of_isSpelling (ds := [3, 11, 5, 13, 2, 12, 7, 4, 8, 1, 1]) (by decide)
  case greatestLow => exact respond_encode_of_isSpelling (ds := [2, 12, 10, 5, 11, 7, 4, 6, 3]) (by decide)
  case greatestHigh => exact respond_encode_of_isSpelling (ds := [3, 11, 3, 0, 6, 6, 9, 11, 3, 8, 12]) (by decide)
  case succeeds => rw [respond_encode, tagResponse, Response.status]

end Sys2Proof.Machine
end

section
/-!
Proofs about DECODE (41_decode.md): its stages UPPER, LOOKUP, ACCUM and SPLIT, and which tags it accepts.
-/

namespace Sys2Proof.Machine

/-! ### Uppercasing (41_decode.md R102) -/

theorem upper_toNat_of_small {c : Byte} (hlo : 0x61 ≤ c.toNat) (hhi : c.toNat ≤ 0x7A) :
    (upper c).toNat = c.toNat - 0x20 := by
  rw [upper, if_pos ⟨hlo, hhi⟩]
  bv_omega

theorem upper_of_not_small {c : Byte} (h : c.toNat < 0x61 ∨ 0x7A < c.toNat) : upper c = c :=
  if_neg (by omega)

/-- Beyond the tag too, since `upper` leaves the code 0 as it is. -/
theorem uch_getD (tag : List Byte) (k : Nat) : (uch tag).getD k 0#8 = upper (tag.getD k 0#8) :=
  List.getD_map tag 0#8 upper

/-- Settles O39: the two branches of `upper`, and `uch` applies it element by element. -/
theorem uppercaseTouchesTheSmallLettersOnly : Obligations.UppercaseTouchesTheSmallLettersOnly := by
  refine ⟨fun c => ⟨upper_toNat_of_small, upper_of_not_small⟩,
    fun tag => ⟨List.length_map upper, fun k _ => uch_getD tag k⟩, ?_⟩
  decide

/-! ### The alphabet index and the accepted codes (41_decode.md R105) -/

theorem index_eq_some_iff (c : Byte) (d : Nat) : index c = some d ↔ d < 14 ∧ alphaAt d = c := by
  constructor
  · exact index_eq_some c d
  · rintro ⟨hd, rfl⟩
    exact index_alphaAt d hd

theorem mem_normalise_iff (tag : List Byte) (n : Byte) :
    n ∈ normalise tag ↔ ∃ c ∈ tag, upper c ≠ 0x23#8 ∧ zeroForO (upper c) = n := by
  simp [normalise, sch, strip, uch, and_assoc]

/-- A code is accepted where NORM drops it or makes an alphabet character of it: a table of 256 codes. -/
theorem mem_acceptedCodes_iff (c : Byte) :
    c ∈ acceptedCodes ↔ (upper c ≠ 0x23#8 → zeroForO (upper c) ∈ alpha) := by
  revert c
  decide +kernel

theorem exists_mem_normalise_not_mem_alpha_iff (tag : List Byte) :
    (∃ n ∈ normalise tag, n ∉ alpha) ↔ ∃ c ∈ tag, c ∉ acceptedCodes := by
  constructor
  · rintro ⟨n, hn, hbad⟩
    obtain ⟨c, hc, hkept, rfl⟩ := (mem_normalise_iff tag n).mp hn
    exact ⟨c, hc, fun hacc => hbad ((mem_acceptedCodes_iff c).mp hacc hkept)⟩
  · rintro ⟨c, hc, hbad⟩
    obtain ⟨hkept, hn⟩ := Classical.not_imp.mp (mt (mem_acceptedCodes_iff c).mpr hbad)
    exact ⟨_, (mem_normalise_iff tag _).mpr ⟨c, hc, hkept, rfl⟩, hn⟩

/-- The only error of a total is InvalidTagCharacter, and it says that the tag as presented holds some other code. -/
theorem dTotal_eq_error_iff (tag : List Byte) (k : ErrorKind) :
    dTotal tag = .error k ↔ k = .invalidTagCharacter ∧ ∃ c ∈ tag, c ∉ acceptedCodes := by
  have hbad : dTotal tag = .error .invalidTagCharacter ↔ ∃ c ∈ tag, c ∉ acceptedCodes := by
    rw [dTotal_eq_accum, accum, accumLoop_error_iff, ← exists_mem_normalise_not_mem_alpha_iff]
    simp only [List.mem_reverse]
  constructor
  · intro h
    have hk : k = .invalidTagCharacter := accumLoop_error _ _ _ _ ((dTotal_eq_accum tag).symm.trans h)
    exact ⟨hk, hbad.mp (hk ▸ h)⟩
  · rintro ⟨rfl, h⟩
    exact hbad.mpr h

/-- `STATUS` of a DECODE response, by the codes of the tag as presented. -/
theorem respond_decode_status (tlen : BitVec 4) (ch : List Byte) :
    (respond (.decode tlen ch)).status =
      if ∃ c ∈ ch.take tlen.toNat, c ∉ acceptedCodes then .failed .invalidTagCharacter else .ok := by
  cases h : dTotal (ch.take tlen.toNat) with
  | error k =>
    obtain ⟨rfl, hbad⟩ := (dTotal_eq_error_iff _ k).mp h
    rw [respond_decode_of_error h, if_pos hbad]
    rfl
  | ok t =>
    have hgood : ¬ ∃ c ∈ ch.take tlen.toNat, c ∉ acceptedCodes := fun hbad =>
      nomatch h.symm.trans ((dTotal_eq_error_iff _ _).mpr ⟨rfl, hbad⟩)
    rw [respond_decode_of_ok h, if_neg hgood]
    rfl

/-- Settles O38: the index inverts the alphabet, and `STATUS` is decided by the accepted codes. -/
theorem acceptedCodesOfATag : Obligations.AcceptedCodesOfATag := by
  refine ⟨index_eq_some_iff, by decide, by decide, fun tlen ch => ?_, by decide⟩
  have hall : (∀ c ∈ ch.take tlen.toNat, c ∈ acceptedCodes) ↔ ¬ ∃ c ∈ ch.take tlen.toNat, c ∉ acceptedCodes := by
    simp
  rw [respond_decode_status, hall]
  split
  next hbad => exact ⟨iff_of_false (by decide) (not_not_intro hbad), iff_of_true rfl hbad⟩
  next hgood => exact ⟨iff_of_true rfl hgood, iff_of_false (by decide) hgood⟩

/-! ### ACCUM (41_decode.md R107) -/

/-- Horner's form is the library's number of the digits, which has the least significant digit first. -/
theorem horner_eq_ofDigits (idx : List Nat) : horner idx = Nat.ofDigits 14 idx.reverse := by
  rw [Nat.ofDigits_eq_foldr, List.foldr_reverse, horner]
  congr 1
  funext t d
  simp only [Config.radix, Nat.cast_id]
  ring

theorem accum_eq_horner {nch : List Byte} {idx : List Nat} (h : lookup nch = idx.map some) :
    accum nch = .ok (horner idx) := by
  have hrev : nch.reverse.map index = idx.reverse.map some := by
    rw [List.map_reverse, List.map_reverse, ← h, lookup]
  rw [accum, accumLoop_ok _ _ hrev, horner_eq_ofDigits]
  simp

theorem presented_length_le (tlen : BitVec 4) (ch : List Byte) : (ch.take tlen.toNat).length ≤ 15 :=
  (List.length_take_le _ _).trans (Nat.le_of_lt_succ tlen.isLt)

/-- Settles O43: the loop from the end and Horner's form from the start both give the number of the digits, which for
15 digits is below `14 ^ 15`. -/
theorem sumOfPowersIsTheHornerForm : Obligations.SumOfPowersIsTheHornerForm := by
  refine ⟨fun nch idx => accum_eq_horner, fun tlen ch => ⟨?nlen, Nat.le_of_lt_succ tlen.isLt, fun t ht => ?bound⟩,
    by decide⟩
  case nlen => exact (normalise_length_le _).trans (List.length_take_le _ _)
  case bound => exact Nat.le_of_lt_succ (dTotal_lt ht (presented_length_le tlen ch))

/-! ### SPLIT (41_decode.md R109) -/

/-- Settles O44: what DECODE answers with a total, which is below `14 ^ 15` and so has no bit above bit 57. -/
theorem splitCutsNothingOff : Obligations.SplitCutsNothingOff := by
  refine ⟨fun tlen ch t ht => ?_, by decide, by decide⟩
  have hlt : t < 14 ^ 15 := dTotal_lt ht (presented_length_le tlen ch)
  obtain ⟨st, lowOut, highOut, hresp, -, htotal⟩ := respond_decode_fields tlen ch
  obtain ⟨rfl, hlow, hhigh⟩ := htotal t ht
  refine ⟨lowOut, highOut, hresp, hlow, hhigh, by omega, ?lowBits, ?highBits, by omega, fun hsmall => ?noHigh⟩
  case lowBits | highBits => exact (extractLsb'_ofNat_eq (by decide) (by omega)).symm
  case noHigh =>
    apply BitVec.eq_of_toNat_eq
    rw [hhigh, Nat.div_eq_of_lt hsmall]
    rfl

end Sys2Proof.Machine
end

section
/-!
Proofs about the two operations together (42_arithmetic_and_properties.md): the alphabet, NORM, leading zeros, and
what each of DECODE and ENCODE makes of the other's result.
-/

namespace Sys2Proof.Machine

/-! ### The alphabet (R127) -/

theorem alphaAt_inj {d e : Nat} (hd : d < 14) (he : e < 14) (h : alphaAt d = alphaAt e) : d = e := by
  have hindex : index (alphaAt d) = index (alphaAt e) := congrArg index h
  rw [index_alphaAt d hd, index_alphaAt e he] at hindex
  exact Option.some.inj hindex

theorem mem_alpha_iff (c : Byte) : c ∈ alpha ↔ ∃ d, index c = some d := by
  rw [← Option.ne_none_iff_exists', Ne, index_eq_none_iff, not_not]

theorem alphaAt_mem_alpha {d : Nat} (h : d < 14) : alphaAt d ∈ alpha :=
  (mem_alpha_iff _).mpr ⟨d, index_alphaAt d h⟩

/-- Settles O42: the index undoes the alphabet, and every alphabet character has an index. -/
theorem alphabetIsABijection : Obligations.AlphabetIsABijection := by
  refine ⟨index_alphaAt, fun d hd e he hne heq => hne (alphaAt_inj hd he heq), fun c hc => ?_⟩
  obtain ⟨d, hd⟩ := (mem_alpha_iff c).mp hc
  exact ⟨d, hd, (index_eq_some c d hd).2⟩

/-! ### NORM of normalised characters (R128) -/

/-- A tag of characters that NORM keeps as they are is its own normal form. -/
theorem normalise_eq_self {tag : List Byte} (h : ∀ c ∈ tag, upper c ≠ 0x23#8 ∧ zeroForO (upper c) = c) :
    normalise tag = tag := by
  induction tag with
  | nil => rfl
  | cons c cs ih =>
    obtain ⟨⟨hkept, hfixed⟩, htail⟩ := List.forall_mem_cons.mp h
    have hhead : normalise [c] = [c] := by simp [normalise, sch, strip, uch, hkept, hfixed]
    rw [← List.singleton_append, normalise_append, hhead, ih htail]

theorem upper_upper (c : Byte) : upper (upper c) = upper c := by
  by_cases hsmall : 0x61 ≤ c.toNat ∧ c.toNat ≤ 0x7A
  · have hcapital : (upper c).toNat = c.toNat - 0x20 := upper_toNat_of_small hsmall.1 hsmall.2
    exact upper_of_not_small (by omega)
  · rw [upper_of_not_small (c := c) (by omega)]
    exact upper_of_not_small (by omega)

/-- Digit zero has no small form, so it does not matter which of the two replacements comes first. -/
theorem upper_zeroForO_upper (c : Byte) : upper (zeroForO (upper c)) = zeroForO (upper c) := by
  unfold zeroForO
  split
  case isTrue => rfl
  case isFalse => exact upper_upper c

theorem zeroForO_zeroForO (c : Byte) : zeroForO (zeroForO c) = zeroForO c := by
  unfold zeroForO
  split
  case isTrue => rfl
  case isFalse => rfl

theorem zeroForO_ne_hash {c : Byte} (h : c ≠ 0x23#8) : zeroForO c ≠ 0x23#8 := by
  unfold zeroForO
  split
  case isTrue => decide
  case isFalse => exact h

/-- Settles O41: NORM keeps every character that it emits. -/
theorem normalisationIsIdempotent : Obligations.NormalisationIsIdempotent := by
  intro tag
  apply normalise_eq_self
  intro n hn
  obtain ⟨c, -, hkept, rfl⟩ := (mem_normalise_iff tag n).mp hn
  rw [upper_zeroForO_upper, zeroForO_zeroForO]
  exact ⟨zeroForO_ne_hash hkept, rfl⟩

theorem normalise_of_mem_alpha {tag : List Byte} (h : ∀ c ∈ tag, c ∈ alpha) : normalise tag = tag := by
  have hfixed : ∀ c ∈ alpha, upper c ≠ 0x23#8 ∧ zeroForO (upper c) = c := by decide
  exact normalise_eq_self fun c hc => hfixed c (h c hc)

/-! ### Leading zeros (R134) -/

theorem accumLoop_replicate_zero (m i total : Nat) : accumLoop (List.replicate m 0x30#8) i total = .ok total := by
  have hzero : (List.replicate m 0x30#8).map index = (List.replicate m 0).map some := by
    rw [List.map_replicate, List.map_replicate]
    rfl
  rw [accumLoop_ok _ _ hzero, Nat.ofDigits_replicate_zero, Nat.mul_zero, Nat.add_zero]

/-- The loop runs from the end of the string, so it meets the leading zeros last. -/
theorem accumLoop_append_replicate_zero (cs : List Byte) (m i total : Nat) :
    accumLoop (cs ++ List.replicate m 0x30#8) i total = accumLoop cs i total := by
  induction cs generalizing i total with
  | nil => exact accumLoop_replicate_zero m i total
  | cons c cs ih => simp only [List.cons_append, accumLoop, ih]

theorem accum_replicate_zero_append (m : Nat) (core : List Byte) :
    accum (List.replicate m 0x30#8 ++ core) = accum core := by
  rw [accum, List.reverse_append, List.reverse_replicate, accumLoop_append_replicate_zero, accum]

/-- DECODE sees the normalised tag without its leading zeros. -/
theorem decodeTag_congr_of_leading_zeros {t t' core : List Byte} {m n : Nat}
    (h : normalise t = List.replicate m 0x30#8 ++ core) (h' : normalise t' = List.replicate n 0x30#8 ++ core) :
    decodeTag t = decodeTag t' := by
  have htotal : dTotal t = dTotal t' := by
    rw [dTotal_eq_accum, dTotal_eq_accum, h, h', accum_replicate_zero_append, accum_replicate_zero_append]
  rw [decodeTag, htotal, decodeTag]

/-- Settles O45: leading zeros add nothing to the sum, and an error is found in what follows them. -/
theorem leadingZerosDoNotMatter : Obligations.LeadingZerosDoNotMatter := by
  refine ⟨?alike, by decide⟩
  case alike =>
    rintro t t' ⟨m, n, core, h, h'⟩
    exact decodeTag_congr_of_leading_zeros h h'

/-! ### Requests that carry a tag, and responses that carry one -/

theorem respond_tagRequest {tag : List Byte} (h : tag.length ≤ 15) : respond (tagRequest tag) = decodeResponse tag := by
  obtain ⟨tlen, ch, hreq, -, -, htake, -⟩ := tagRequest_layout h
  rw [hreq, respond, presentedTag, htake]

/-- DECODE of a tag answers a pair exactly where the tag's total is the one the pair splits. -/
theorem respond_tagRequest_eq_ok_iff {tag : List Byte} (h : tag.length ≤ 15) (lowOut : BitVec 8)
    (highOut : BitVec 50) :
    respond (tagRequest tag) = .rd .ok lowOut highOut ↔ dTotal tag = .ok (lowOut.toNat + 256 * highOut.toNat) := by
  rw [respond_tagRequest h, decodeResponse, decodeTag]
  cases htotal : dTotal tag with
  | error k => simp [failRD]
  | ok t =>
    obtain ⟨hlow, hhigh⟩ := splitTotal_fits (dTotal_lt htotal h)
    simp only [rdResponse_ok, pairResponse, Response.rd.injEq, true_and, Except.ok.injEq, ← BitVec.toNat_inj,
      hlow, hhigh]
    omega

/-- A response carries one tag only. -/
theorem tagResponse_inj {tag tag' : List Byte} (h : tag.length ≤ 11) (h' : tag'.length ≤ 11)
    (heq : tagResponse tag = tagResponse tag') : tag = tag' := by
  obtain ⟨-, holen, hoch⟩ := Response.re.inj heq
  have hlen : tag.length = tag'.length := by
    rw [← toNat_ofNat_four (n := tag.length) (by omega), holen, toNat_ofNat_four (by omega)]
  calc tag = (zeroFill Config.odig tag).take tag.length := (zeroFill_take_length _ tag).symm
    _ = (zeroFill Config.odig tag').take tag'.length := by rw [hoch, hlen]
    _ = tag' := zeroFill_take_length _ tag'

/-! ### DECODE after ENCODE (R130, R131) -/

theorem mem_alpha_of_mem_subst {ds : List Nat} (h : ∀ d ∈ ds, d < 14) : ∀ c ∈ subst ds, c ∈ alpha := by
  intro c hc
  obtain ⟨d, hd, rfl⟩ := List.mem_map.mp hc
  exact alphaAt_mem_alpha (h d hd)

/-- LOOKUP undoes SUBST. -/
theorem lookup_subst {ds : List Nat} (h : ∀ d ∈ ds, d < 14) : lookup (subst ds) = ds.map some := by
  rw [lookup, subst, List.map_map]
  exact List.map_congr_left fun d hd => index_alphaAt d (h d hd)

/-- SUBST undoes LOOKUP. -/
theorem eq_subst_of_lookup {nch : List Byte} {idx : List Nat} (h : lookup nch = idx.map some) : nch = subst idx := by
  induction nch generalizing idx with
  | nil =>
    cases idx with
    | nil => rfl
    | cons d idx => cases h
  | cons c cs ih =>
    cases idx with
    | nil => cases h
    | cons d idx =>
      obtain ⟨hhead, htail⟩ := List.cons.inj h
      rw [ih htail, subst, subst, List.map_cons, (index_eq_some c d hhead).2]

/-- The base-14 spelling of a number has that number as its total. -/
theorem accum_subst_b14 (t : Nat) : accum (subst (b14 t)) = .ok t := by
  obtain ⟨hdigits, hnumber, -⟩ : IsSpelling 14 t (b14 t) := isSpelling_digitsOf (by decide) t
  rw [accum_eq_horner (lookup_subst hdigits), horner_eq_ofDigits, hnumber]

theorem mem_alpha_of_mem_subst_b14 (t : Nat) : ∀ c ∈ subst (b14 t), c ∈ alpha :=
  mem_alpha_of_mem_subst fun d => digitsOf_lt Config.radix t d (by decide)

theorem dTotal_subst_b14 (t : Nat) : dTotal (subst (b14 t)) = .ok t := by
  rw [dTotal_eq_accum, normalise_of_mem_alpha (mem_alpha_of_mem_subst_b14 t), accum_subst_b14]

/-- DECODE of the tag that ENCODE emits answers the pairs with the total of the operands, so the one of them that
fits. -/
theorem respond_tagRequest_encoded_iff (low high : Operand) (lowOut : BitVec 8) (highOut : BitVec 50) :
    respond (tagRequest (subst (digits low.toNat high.toNat))) = .rd .ok lowOut highOut ↔
      low.toNat + 256 * high.toNat = lowOut.toNat + 256 * highOut.toNat := by
  have hlen : (subst (digits low.toNat high.toNat)).length ≤ 15 := (tag_length_bounds low high).2.trans (by decide)
  rw [respond_tagRequest_eq_ok_iff hlen, digits, dTotal_subst_b14, Except.ok.injEq, eTotal_eq low.isLt high.isLt]

/-- Settles O46: the tag spells the total of the operands, and the pair given is the split of that total. -/
theorem decodeAfterEncode : Obligations.DecodeAfterEncode := by
  intro low high
  have hlow : (BitVec.ofNat 8 (low.toNat % 256)).toNat = low.toNat % 256 := by
    rw [BitVec.toNat_ofNat]
    omega
  have hhigh : (BitVec.ofNat 50 (high.toNat + low.toNat / 256)).toNat = high.toNat + low.toNat / 256 := by
    rw [BitVec.toNat_ofNat]
    omega
  refine ⟨subst (digits low.toNat high.toNat), _, _, respond_encode low high, (tag_length_bounds low high).2,
    dTotal_subst_b14 _, eTotal_eq low.isLt high.isLt, (respond_tagRequest_encoded_iff low high _ _).mpr ?split,
    hlow, hhigh, by omega⟩
  case split => omega

/-- Settles O47: the low output is a byte, and a pair whose low part is a byte is the split of its own total. -/
theorem roundTripExactlyWhenLowIsAByte : Obligations.RoundTripExactlyWhenLowIsAByte := by
  intro low high tag hresp hlen
  obtain rfl : subst (digits low.toNat high.toNat) = tag :=
    tagResponse_inj (tag_length_bounds low high).2 hlen ((respond_encode low high).symm.trans hresp)
  simp only [respond_tagRequest_encoded_iff]
  constructor
  case mp =>
    rintro ⟨lowOut, highOut, -, hlow, -⟩
    exact hlow ▸ lowOut.isLt
  case mpr =>
    intro hbyte
    have hlow : (low.setWidth 8).toNat = low.toNat := by
      rw [BitVec.toNat_setWidth]
      omega
    have hhigh : (high.setWidth 50).toNat = high.toNat := BitVec.toNat_setWidth_of_le (by decide)
    exact ⟨low.setWidth 8, high.setWidth 50, by rw [hlow, hhigh], hlow, hhigh⟩

/-! ### The canonical spelling (R132) -/

@[simp] theorem canonicalSpelling_nil : canonicalSpelling [] = [0x30#8] := rfl

@[simp] theorem canonicalSpelling_zero_cons (cs : List Byte) :
    canonicalSpelling (0x30#8 :: cs) = canonicalSpelling cs := by
  simp [canonicalSpelling]

theorem canonicalSpelling_cons_of_ne {c : Byte} (h : c ≠ 0x30#8) (cs : List Byte) :
    canonicalSpelling (c :: cs) = c :: cs := by
  simp [canonicalSpelling, h]

theorem canonicalTag_iff (tag : List Byte) :
    canonicalTag tag = true ↔
      tag ≠ [] ∧ (∀ c ∈ tag, c ∈ alpha) ∧ (tag.headD 0#8 ≠ 0x30#8 ∨ tag.length = 1) := by
  simp [canonicalTag, and_assoc]

theorem canonicalTag_canonicalSpelling {nch : List Byte} (h : ∀ c ∈ nch, c ∈ alpha) :
    canonicalTag (canonicalSpelling nch) = true := by
  induction nch with
  | nil => decide
  | cons c cs ih =>
    by_cases hc : c = 0x30#8
    · subst hc
      rw [canonicalSpelling_zero_cons]
      exact ih fun c hc => h c (List.mem_cons_of_mem _ hc)
    · rw [canonicalSpelling_cons_of_ne hc, canonicalTag_iff]
      exact ⟨List.cons_ne_nil c cs, h, Or.inl hc⟩

theorem canonicalSpelling_eq_self {tag : List Byte} (h : canonicalTag tag = true) : canonicalSpelling tag = tag := by
  obtain ⟨hne, -, hhead⟩ := (canonicalTag_iff tag).mp h
  match tag, hne with
  | c :: cs, _ =>
    by_cases hc : c = 0x30#8
    · obtain hhead | hlen := hhead
      · exact absurd hc hhead
      · obtain rfl : cs = [] := List.length_eq_zero_iff.mp (Nat.succ.inj hlen)
        rw [hc]
        rfl
    · exact canonicalSpelling_cons_of_ne hc cs

/-- The canonical tags are those that are their own canonical spelling. -/
theorem canonicalSpelling_normalise_eq_iff {tag : List Byte} (h : ∀ c ∈ normalise tag, c ∈ alpha) :
    canonicalSpelling (normalise tag) = tag ↔ canonicalTag tag = true := by
  constructor
  case mp => exact fun heq => heq ▸ canonicalTag_canonicalSpelling h
  case mpr =>
    intro hcanonical
    obtain ⟨-, halpha, -⟩ := (canonicalTag_iff tag).mp hcanonical
    rw [normalise_of_mem_alpha halpha, canonicalSpelling_eq_self hcanonical]

theorem isSpelling_cons {b d : Nat} {ds : List Nat} (hb : 0 < b) (hd : d ≠ 0) (h : ∀ e ∈ d :: ds, e < b) :
    IsSpelling b (Nat.ofDigits b (d :: ds).reverse) (d :: ds) := by
  refine ⟨h, rfl, Or.inr ⟨?_, hd⟩⟩
  rw [Nat.ofDigits_reverse_cons]
  have hplace : 0 < b ^ ds.length * d := Nat.mul_pos (Nat.pow_pos hb) (Nat.pos_of_ne_zero hd)
  omega

/-- Dropping the leading zeros of the characters leaves the base-14 spelling of the number they spell. -/
theorem canonicalSpelling_subst {idx : List Nat} (h : ∀ d ∈ idx, d < 14) :
    canonicalSpelling (subst idx) = subst (b14 (horner idx)) := by
  induction idx with
  | nil => rfl
  | cons d idx ih =>
    by_cases hd : d = 0
    · subst hd
      have hzero : horner (0 :: idx) = horner idx := rfl
      rw [hzero, ← ih fun d hd => h d (List.mem_cons_of_mem _ hd)]
      exact canonicalSpelling_zero_cons (subst idx)
    · have hchar : alphaAt d ≠ 0x30#8 := fun hc => hd (alphaAt_inj (h d List.mem_cons_self) (by decide) hc)
      rw [horner_eq_ofDigits, ← (isSpelling_cons (by decide) hd h).eq_b14]
      exact canonicalSpelling_cons_of_ne hchar (subst idx)

/-- A tag with a total has indices, which spell the total. -/
theorem exists_idx_of_accum_ok {nch : List Byte} {t : Nat} (h : accum nch = .ok t) :
    ∃ idx : List Nat, nch = subst idx ∧ (∀ d ∈ idx, d < 14) ∧ horner idx = t := by
  obtain ⟨ds, hds⟩ := map_index_of_accumLoop_ok h
  have hlookup : lookup nch = ds.reverse.map some := by
    rw [List.map_reverse, ← hds, List.map_reverse, List.reverse_reverse, lookup]
  have hnumber : Except.ok (horner ds.reverse) = Except.ok t := (accum_eq_horner hlookup).symm.trans h
  exact ⟨ds.reverse, eq_subst_of_lookup hlookup, lt_of_map_index_eq hlookup, Except.ok.inj hnumber⟩

theorem mem_alpha_of_accum_ok {nch : List Byte} {t : Nat} (h : accum nch = .ok t) : ∀ c ∈ nch, c ∈ alpha := by
  obtain ⟨idx, rfl, hlt, -⟩ := exists_idx_of_accum_ok h
  exact mem_alpha_of_mem_subst hlt

theorem canonicalSpelling_of_accum_ok {nch : List Byte} {t : Nat} (h : accum nch = .ok t) :
    canonicalSpelling nch = subst (b14 t) := by
  obtain ⟨idx, rfl, hlt, rfl⟩ := exists_idx_of_accum_ok h
  exact canonicalSpelling_subst hlt

/-- ENCODE of a pair from DECODE that fits the operands emits the base-14 spelling of the pair's total. -/
theorem digits_setWidth (lowOut : BitVec 8) {highOut : BitVec 50} (h : highOut.toNat ≤ 2 ^ 32 - 1) :
    digits (lowOut.setWidth 32).toNat (highOut.setWidth 32).toNat = b14 (lowOut.toNat + 256 * highOut.toNat) := by
  have hlow : (lowOut.setWidth 32).toNat = lowOut.toNat := BitVec.toNat_setWidth_of_le (by decide)
  have hhigh : (highOut.setWidth 32).toNat = highOut.toNat := by
    rw [BitVec.toNat_setWidth]
    omega
  rw [digits, eTotal_eq (BitVec.isLt _) (BitVec.isLt _), hlow, hhigh]

/-- Settles O48: the canonical spelling of a tag with a total is the base-14 spelling of the total, which is what
ENCODE emits for the split of the total. The tag that does not fit is eleven `V`. -/
theorem encodeAfterDecodeIsTheCanonicalSpelling : Obligations.EncodeAfterDecodeIsTheCanonicalSpelling := by
  refine ⟨fun tag lowOut highOut hlen hresp => ?_,
    List.replicate 11 0x56#8, 255, 15818613943, by decide, by decide +kernel, by decide⟩
  have haccum : accum (normalise tag) = .ok (lowOut.toNat + 256 * highOut.toNat) := by
    rw [← dTotal_eq_accum]
    exact (respond_tagRequest_eq_ok_iff hlen lowOut highOut).mp hresp
  have hspelling := canonicalSpelling_of_accum_ok haccum
  refine ⟨fun hfits => ?encode, canonicalSpelling_normalise_eq_iff (mem_alpha_of_accum_ok haccum), by omega,
    fun hten => ?tenDigits⟩
  case encode =>
    rw [hspelling, ← digits_setWidth lowOut hfits]
    exact ⟨respond_encode _ _, (tag_length_bounds _ _).2⟩
  case tenDigits =>
    rw [hspelling] at hten
    calc lowOut.toNat + 256 * highOut.toNat < 14 ^ _ := accum_lt (accum_subst_b14 _)
      _ ≤ 14 ^ 10 := Nat.pow_le_pow_right (by decide) hten
      _ < 2 ^ 40 := by decide

/-! ### The fixed scenarios of the source (R136) -/

theorem respond_encode_scenario :
    respond (.encode 9 3130736) = tagResponse [0x51#8, 0x47#8, 0x4C#8, 0x38#8, 0x55#8, 0x50#8, 0x47#8, 0x52#8] :=
  respond_encode_of_isSpelling (ds := [7, 8, 6, 2, 12, 4, 8, 9]) (by decide)

theorem respond_decode_scenario : respond (tagRequest selfTestTag) = .rd .ok 88 42887097 :=
  (respond_tagRequest_eq_ok_iff (by decide) 88 42887097).mpr (by decide)

/-- Settles O50: both answers, and each differs from the other scenario's values. -/
theorem fixedScenarios : Obligations.FixedScenarios := by
  refine ⟨respond_decode_scenario, respond_encode_scenario, ?decode, ?encode⟩
  case decode =>
    rw [respond_decode_scenario]
    decide
  case encode =>
    rw [respond_encode_scenario]
    exact fun heq => absurd (tagResponse_inj (by decide) (by decide) heq) (by decide)

end Sys2Proof.Machine
end

section
/-!
Proofs about errors (60_exceptions.md): the failure response of each operation, and how a response is delivered.
-/

namespace Sys2Proof.Machine

/-! ### The failure responses as words (R143) -/

theorem pack_failRE_toNat (k : ErrorKind) : (failRE k).pack.toNat = k.code.toNat := by
  simp [failRE, pack_re_toNat, Status.code]

theorem pack_failRD_toNat (k : ErrorKind) : (failRD k).pack.toNat = k.code.toNat := by
  simp [failRD, pack_rd_toNat, Status.code]

/-! ### Delivery (R143, R147) -/

theorem State.answers_accept (s : State) (i : Instr) (r : Response) : s.Answers (s.accept i r) r :=
  ⟨⟨s.latencyOf i, rfl⟩, rfl, rfl, rfl, rfl, rfl⟩

/-- An error and a success are delivered alike: the arms of `exec` do not look at the response. -/
theorem exists_exec_eq_next_answers (i : Instr) (s : State) :
    ∃ t, exec i s = .next t ∧ s.Answers t (respond i) :=
  ⟨s.accept i (respond i), exec_eq_accept i s, s.answers_accept i (respond i)⟩

/-! ### The error of DECODE (R142) -/

/-- SPLIT raises no error. -/
theorem decodeTag_eq_error_iff (tag : List Byte) (k : ErrorKind) :
    decodeTag tag = .error k ↔ dTotal tag = .error k := by
  rw [decodeTag]
  cases dTotal tag with
  | error _ => simp only [Except.error.injEq]
  | ok _ => simp only [reduceCtorEq]

/-- Settles O11: the failure responses, whose packed words are the codes, the delivery of every response, and the one
error of a total. -/
theorem failureResponseCarriesTheCodeAndZeros : Obligations.FailureResponseCarriesTheCodeAndZeros := by
  refine ⟨reResponse_error, rdResponse_error, ?encodeWord, ?decodeWord,
    fun low high => exists_exec_eq_next_answers (.encode low high),
    fun tlen ch => exists_exec_eq_next_answers (.decode tlen ch), fun tag k h => ?kind⟩
  case encodeWord => exact BitVec.eq_of_toNat_eq (pack_failRE_toNat .malformedEncodingInput)
  case decodeWord => exact BitVec.eq_of_toNat_eq (pack_failRD_toNat .invalidTagCharacter)
  case kind => exact ((dTotal_eq_error_iff tag k).mp ((decodeTag_eq_error_iff tag k).mp h)).1

end Sys2Proof.Machine
end

section
/-!
Proofs about request words: decoding and encoding undo each other, and what the ignored bits of a request are.
-/

namespace Sys2Proof.Machine

/-! ### The instruction of a word (30_encoding.md R56, R57) -/

theorem decodeReq_of_reqOp {w : ReqWord} (h : reqOp w = true) :
    decodeReq w = .decode (reqTlen w) ((List.range 15).map (reqCh w)) := if_pos h

theorem decodeReq_of_not_reqOp {w : ReqWord} (h : reqOp w = false) :
    decodeReq w = .encode (reqLow w) (reqHigh w) := by
  simp [decodeReq, h]

theorem decodeReq_wellFormed (w : ReqWord) : (decodeReq w).WellFormed := by
  cases h : reqOp w with
  | false => rw [decodeReq_of_not_reqOp h]; rfl
  | true => rw [decodeReq_of_reqOp h, Instr.wellFormed_decode_iff, List.length_map, List.length_range]

/-- Settles O6: `OP` selects the branch of the decoder. -/
theorem everyWordIsAWellFormedRequest : Obligations.EveryWordIsAWellFormedRequest := fun w =>
  ⟨decodeReq_wellFormed w, fun h => ⟨_, _, decodeReq_of_not_reqOp h⟩, fun h => ⟨_, _, decodeReq_of_reqOp h⟩⟩

/-- Settles O1: the decoder evaluated on each of the four words. -/
theorem writtenWordsDecode : Obligations.WrittenWordsDecode :=
  ⟨by decide, by decide, by decide, by decide⟩

/-! ### Decoding after encoding -/

/-- Settles O2: each field is read back from the place where it was put. -/
theorem decodeOfEncodeIsTheInstruction : Obligations.DecodeOfEncodeIsTheInstruction := by
  intro i hwf
  cases i with
  | encode low high => rw [decodeReq_of_not_reqOp (Laws.OpBit.encode low high).1, reqLow_encode, reqHigh_encode]
  | decode tlen ch =>
    have hch : ch.length = 15 := (Instr.wellFormed_decode_iff tlen ch).mp hwf
    rw [decodeReq_of_reqOp (Laws.OpBit.decode tlen ch).1, reqTlen_encode]
    congr 1
    refine List.ext_getElem (by simp [hch]) fun k hk hk' => ?_
    rw [List.getElem_map, List.getElem_range, reqCh_encode tlen hch (hch ▸ hk'), List.getD_eq_getElem _ _ hk']

/-! ### Encoding after decoding -/

/-- A word is its lowest bits with the next ones above them. -/
theorem toNat_mod_two_pow_add {n : Nat} (w : BitVec n) (start len : Nat) :
    w.toNat % 2 ^ (start + len) = w.toNat % 2 ^ start + (w.extractLsb' start len).toNat * 2 ^ start := by
  rw [BitVec.extractLsb'_toNat, Nat.shiftRight_eq_div_pow, pow_add, Nat.mod_mul, Nat.mul_comm (2 ^ start)]

theorem packChars_append (as bs : List Byte) :
    packChars (as ++ bs) = packChars as + 256 ^ as.length * packChars bs := by
  induction as with
  | nil => simp [packChars]
  | cons c cs ih =>
    simp only [List.cons_append, packChars, ih, List.length_cons, pow_succ]
    ring

/-- The bits of a word up to the end of character field `n - 1`. -/
theorem toNat_mod_eq_add_packChars (w : ReqWord) (n : Nat) :
    w.toNat % 2 ^ (5 + 8 * n) = w.toNat % 2 ^ 5 + packChars ((List.range n).map (reqCh w)) * 2 ^ 5 := by
  induction n with
  | zero => simp [packChars]
  | succ n ih =>
    have hplace : 5 + 8 * (n + 1) = 5 + 8 * n + 8 := by omega
    rw [hplace, toNat_mod_two_pow_add, ih, List.range_succ, List.map_append, packChars_append]
    simp only [List.map_cons, List.map_nil, List.length_map, List.length_range, packChars, reqCh, pow_add, pow_mul]
    ring

theorem toNat_mod_two (w : ReqWord) : w.toNat % 2 = if reqOp w then 1 else 0 := by
  simp only [reqOp, BitVec.getLsbD, Nat.testBit_zero]
  have := Nat.mod_two_eq_zero_or_one w.toNat
  split <;> simp_all

/-- Settles O3: the fields of a format, one above the other, are the word's bits up to the format's width. -/
theorem encodeOfDecodeIsTheWord : Obligations.EncodeOfDecodeIsTheWord := by
  intro w
  have hop : w.toNat % 2 ^ 1 = if reqOp w then 1 else 0 := toNat_mod_two w
  constructor
  · intro h
    rw [if_pos h] at hop
    have hheader := toNat_mod_two_pow_add w 1 4
    have harray := toNat_mod_eq_add_packChars w 15
    apply BitVec.eq_of_toNat_eq
    rw [decodeReq_of_reqOp h, encode_decode_toNat, List.take_of_length_le (by simp), ← Nat.mod_eq_of_lt w.isLt]
    change w.toNat % 2 ^ 5 = w.toNat % 2 ^ 1 + (reqTlen w).toNat * 2 ^ 1 at hheader
    change w.toNat % 2 ^ 125 = _ at harray
    omega
  · intro h
    rw [h, if_neg Bool.false_ne_true] at hop
    have hlow := toNat_mod_two_pow_add w 1 32
    have hhigh := toNat_mod_two_pow_add w 33 32
    apply BitVec.eq_of_toNat_eq
    rw [decodeReq_of_not_reqOp h, encode_encode_toNat, BitVec.toNat_setWidth_of_le (by decide)]
    change w.toNat % 2 ^ 33 = w.toNat % 2 ^ 1 + (reqLow w).toNat * 2 ^ 1 at hlow
    change w.toNat % 2 ^ 65 = w.toNat % 2 ^ 33 + (reqHigh w).toNat * 2 ^ 33 at hhigh
    simp only [BitVec.extractLsb'_toNat, Nat.shiftRight_zero]
    omega

/-! ### Ignored bits (30_encoding.md R57) -/

theorem canonical_decode (tlen : BitVec 4) (ch : List Byte) :
    (Instr.decode tlen ch).canonical = .decode tlen (zeroFill 15 (presentedTag tlen ch)) := rfl

theorem Instr.canonical_wellFormed (i : Instr) : i.canonical.WellFormed := by
  cases i with
  | encode low high => rfl
  | decode tlen ch =>
    rw [canonical_decode, Instr.wellFormed_decode_iff]
    exact zeroFill_length (presented_length_le tlen ch)

theorem presentedTag_length {tlen : BitVec 4} {ch : List Byte} (hch : ch.length = 15) :
    (presentedTag tlen ch).length = tlen.toNat :=
  List.length_take_of_le (hch ▸ Nat.le_of_lt_succ tlen.isLt)

/-- The canonical form of a request carries the same tag. -/
theorem respond_canonical {i : Instr} (h : i.WellFormed) : respond i.canonical = respond i := by
  cases i with
  | encode low high => rfl
  | decode tlen ch =>
    have hlen := presentedTag_length (tlen := tlen) ((Instr.wellFormed_decode_iff tlen ch).mp h)
    rw [canonical_decode]
    apply respond_decode_congr
    calc (zeroFill 15 (presentedTag tlen ch)).take tlen.toNat
        = (zeroFill 15 (presentedTag tlen ch)).take (presentedTag tlen ch).length := by rw [hlen]
      _ = ch.take tlen.toNat := zeroFill_take_length 15 _

theorem decodeReq_canonicalWord (w : ReqWord) : decodeReq (canonicalWord w) = (decodeReq w).canonical :=
  decodeOfEncodeIsTheInstruction _ (Instr.canonical_wellFormed _)

/-- The canonical word of a request has everything that its response depends on. -/
theorem respond_decodeReq_canonicalWord (w : ReqWord) :
    respond (decodeReq (canonicalWord w)) = respond (decodeReq w) := by
  rw [decodeReq_canonicalWord, respond_canonical (decodeReq_wellFormed w)]

theorem respond_decodeReq_congr {w w' : ReqWord} (h : canonicalWord w = canonicalWord w') :
    respond (decodeReq w) = respond (decodeReq w') := by
  rw [← respond_decodeReq_canonicalWord w, h, respond_decodeReq_canonicalWord]

/-- A field within the lowest bits of a word depends on those bits alone. -/
theorem extractLsb'_congr {n m start len : Nat} {w w' : BitVec n} (h : w.extractLsb' 0 m = w'.extractLsb' 0 m)
    (hm : start + len ≤ m) : w.extractLsb' start len = w'.extractLsb' start len := by
  ext k hk
  have hbit := congrArg (fun v => v.getLsbD (start + k)) h
  simpa [show start + k < m by omega] using hbit

theorem decodeReq_eFormat_congr {w w' : ReqWord} (hop : reqOp w = false)
    (h : w.extractLsb' 0 65 = w'.extractLsb' 0 65) : decodeReq w = decodeReq w' := by
  have hop' : reqOp w' = false := by
    have hbit := congrArg (fun v => v.getLsbD 0) h
    simpa [reqOp, ← hop] using hbit.symm
  rw [decodeReq_of_not_reqOp hop, decodeReq_of_not_reqOp hop']
  congr 1
  · exact extractLsb'_congr h (by decide)
  · exact extractLsb'_congr h (by decide)

/-- The tag of a D-format word is what stands in its character fields below `TLEN`. -/
theorem take_map_range_eq {f g : Nat → Byte} {n m : Nat} (h : ∀ k < n, f k = g k) :
    ((List.range m).map f).take n = ((List.range m).map g).take n := by
  rw [← List.map_take, ← List.map_take, List.take_range]
  exact List.map_congr_left fun k hk => h k (by simp at hk; omega)

/-- Settles O7: the fields that a response depends on. -/
theorem ignoredRequestBitsHaveNoEffect : Obligations.IgnoredRequestBitsHaveNoEffect := by
  refine ⟨fun w w' hop h => ?eFormat, fun w w' hop hop' htlen hch => ?dFormat, fun w => ?canonical⟩
  case eFormat => rw [respondWord, decodeReq_eFormat_congr hop h, respondWord]
  case dFormat =>
    rw [respondWord, respondWord, decodeReq_of_reqOp hop, decodeReq_of_reqOp hop', ← htlen,
      respond_decode_congr (take_map_range_eq hch)]
  case canonical => rw [respondWord, respond_decodeReq_canonicalWord, respondWord]

end Sys2Proof.Machine
end

section
/-!
Proofs about responses: what each operation answers in every state, and what no response ever is.
-/

namespace Sys2Proof.Machine

theorem exec_answers {i : Instr} {r : Response} (h : respond i = r) (s : State) :
    ∃ t, exec i s = .next t ∧ s.Answers t r :=
  h ▸ exists_exec_eq_next_answers i s

/-- Settles O26: the response that `exec` appends is `respond` of the instruction, whatever the state. -/
theorem responseDependsOnTheRequestOnly : Obligations.ResponseDependsOnTheRequestOnly := fun i =>
  ⟨respond i, exists_exec_eq_next_answers i⟩

/-! ### ENCODE (40_encode.md R70, R82) -/

/-- Settles O27: the model's digits are the library's. -/
theorem encodeAnswersTheTag : Obligations.EncodeAnswersTheTag := by
  intro low high s
  obtain ⟨hpos, hle⟩ := tag_length_bounds low high
  obtain ⟨t, hexec, hanswers⟩ := exec_answers (respond_encode low high) s
  refine ⟨t, subst (digits low.toNat high.toNat), ?tag, hpos, hle, hexec, hanswers⟩
  case tag =>
    rw [digits, b14, digitsOf_eq _ _ (by decide), eTotal_eq low.isLt high.isLt]
    rfl

/-- Settles O49: a response carries one tag, and a tag has one total. -/
theorem sameTagExactlyWhenSameTotal : Obligations.SameTagExactlyWhenSameTotal := by
  intro low high low' high'
  rw [respond_encode, respond_encode, digits, digits, ← eTotal_eq low.isLt high.isLt, ← eTotal_eq low'.isLt high'.isLt]
  constructor
  case mp =>
    intro h
    have htag := tagResponse_inj (tag_length_bounds low high).2 (tag_length_bounds low' high').2 h
    have htotal : Except.ok (eTotal low.toNat high.toNat) = dTotal (subst (digits low'.toNat high'.toNat)) :=
      htag ▸ (dTotal_subst_b14 _).symm
    exact Except.ok.inj (htotal.trans (dTotal_subst_b14 _))
  case mpr => exact fun h => by rw [h]

/-! ### DECODE (41_decode.md R100, R106, R109) -/

theorem dTotal_of_lookup {tag : List Byte} {idx : List Nat} (h : lookup (normalise tag) = idx.map some) :
    dTotal tag = .ok (Nat.ofDigits 14 idx.reverse) := by
  rw [dTotal_eq_accum, accum_eq_horner h, horner_eq_ofDigits]

/-- Settles O36: the total that the indices spell, which 15 characters keep in range. -/
theorem decodeAnswersThePair : Obligations.DecodeAnswersThePair := by
  intro tlen ch s idx hidx
  have htotal := dTotal_of_lookup hidx
  obtain ⟨t, hexec, hanswers⟩ := exec_answers (respond_decode_of_ok htotal) s
  exact ⟨t, hexec, dTotal_lt htotal (presented_length_le tlen ch), hanswers⟩

theorem dTotal_of_not_mem_alpha {tag : List Byte} {c : Byte} (hc : c ∈ normalise tag) (hbad : c ∉ alpha) :
    dTotal tag = .error .invalidTagCharacter :=
  (dTotal_eq_error_iff tag _).mpr ⟨rfl, (exists_mem_normalise_not_mem_alpha_iff tag).mp ⟨c, hc, hbad⟩⟩

/-- Settles O37: an error is an ordinary answer, and the state after it serves every request. -/
theorem decodeAnswersInvalidTagCharacter : Obligations.DecodeAnswersInvalidTagCharacter := by
  intro tlen ch s c hc hbad
  obtain ⟨t, hexec, hanswers⟩ := exec_answers (respond_decode_of_error (dTotal_of_not_mem_alpha hc hbad)) s
  exact ⟨t, hexec, hanswers, fun i => exists_exec_eq_next_answers i t⟩

/-! ### NORM (41_decode.md R101 to R104) -/

theorem upper_eq_hash_iff (c : Byte) : upper c = 0x23#8 ↔ c = 0x23#8 := by
  by_cases hsmall : 0x61 ≤ c.toNat ∧ c.toNat ≤ 0x7A
  · have hcapital := upper_toNat_of_small hsmall.1 hsmall.2
    refine iff_of_false (fun h => ?_) (fun h => ?_)
    · rw [h, BitVec.toNat_ofNat] at hcapital
      omega
    · rw [h] at hsmall
      exact absurd hsmall (by decide)
  · rw [upper_of_not_small (by omega)]

theorem normalise_eq_map_filter (tag : List Byte) :
    normalise tag = (tag.filter fun c => c != 0x23#8).map fun c => zeroForO (upper c) := by
  have hhash : ((fun c => c != 0x23#8) ∘ upper) = fun c : Byte => c != 0x23#8 := by
    funext c
    simp [upper_eq_hash_iff, bne]
  rw [normalise, sch, strip, uch, List.filter_map, hhash, List.map_map]
  rfl

theorem upper_not_small (c : Byte) : ¬ (0x61 ≤ (upper c).toNat ∧ (upper c).toNat ≤ 0x7A) := by
  by_cases hsmall : 0x61 ≤ c.toNat ∧ c.toNat ≤ 0x7A
  · have hcapital := upper_toNat_of_small hsmall.1 hsmall.2
    omega
  · rwa [upper_of_not_small (by omega)]

/-- What NORM emits. -/
theorem zeroForO_upper_properties {c : Byte} (h : upper c ≠ 0x23#8) :
    zeroForO (upper c) ≠ 0x23#8 ∧ zeroForO (upper c) ≠ 0x4F#8 ∧
      ¬ (0x61 ≤ (zeroForO (upper c)).toNat ∧ (zeroForO (upper c)).toNat ≤ 0x7A) := by
  refine ⟨zeroForO_ne_hash h, ?_⟩
  unfold zeroForO
  split
  next => decide
  next hO => exact ⟨hO, upper_not_small c⟩

/-- Settles O40: uppercasing makes no `#`, so the filter may come first. -/
theorem normalisationDropsHashesOnly : Obligations.NormalisationDropsHashesOnly := by
  intro tag
  refine ⟨?length, normalise_eq_map_filter tag, ?emitted⟩
  case length =>
    have hsplit := tag.length_eq_countP_add_countP (fun c => c == 0x23#8)
    rw [normalise_eq_map_filter, List.length_map, ← List.countP_eq_length_filter, hsplit, List.count,
      Nat.add_sub_cancel_left]
    exact List.countP_congr fun c _ => by simp
  case emitted =>
    intro n hn
    obtain ⟨c, -, hkept, rfl⟩ := (mem_normalise_iff tag n).mp hn
    exact zeroForO_upper_properties hkept

/-! ### STATUS (30_encoding.md R58) -/

theorem respond_encode_status (low high : Operand) : (respond (.encode low high)).status = .ok := by
  rw [respond_encode, tagResponse, Response.status]

/-- `STATUS` of a DECODE response, by the normalised characters. -/
theorem respond_decode_status_of_normalised (tlen : BitVec 4) (ch : List Byte) :
    (respond (.decode tlen ch)).status =
      if ∃ c ∈ normalise (ch.take tlen.toNat), c ∉ alpha then .failed .invalidTagCharacter else .ok := by
  simp only [respond_decode_status, exists_mem_normalise_not_mem_alpha_iff]

theorem Status.code_ne_three (st : Status) : st.code ≠ 0b11 := by
  cases st with
  | ok => decide
  | failed k => cases k <;> decide

/-- Settles O10: ENCODE's sequence always has eight elements, and DECODE looks for a character outside the alphabet. -/
theorem statusCodesAndTheirMeaning : Obligations.StatusCodesAndTheirMeaning := by
  refine ⟨rfl, rfl, rfl, fun low high => ?encode, fun tlen ch => ?decode, fun i => Status.code_ne_three _⟩
  case encode =>
    rw [respond_encode_status, seqOf_length]
    decide
  case decode =>
    have hall : (∀ c ∈ normalise (ch.take tlen.toNat), c ∈ alpha) ↔
        ¬ ∃ c ∈ normalise (ch.take tlen.toNat), c ∉ alpha := by simp
    rw [respond_decode_status_of_normalised, hall]
    split
    next hbad => exact ⟨iff_of_true rfl hbad, iff_of_false (by decide) (not_not_intro hbad)⟩
    next hgood => exact ⟨iff_of_false (by decide) hgood, iff_of_true rfl hgood⟩

/-! ### Legal responses (30_encoding.md R57, 93_implementation_defined.md I9) -/

theorem canonicalTag_subst_b14 (t : Nat) : canonicalTag (subst (b14 t)) = true :=
  canonicalSpelling_of_accum_ok (accum_subst_b14 t) ▸ canonicalTag_canonicalSpelling (mem_alpha_of_mem_subst_b14 t)

/-- The response of a canonical tag of at most 11 characters is legal. -/
theorem tagResponse_legal {tag : List Byte} (hlen : tag.length ≤ 11) (h : canonicalTag tag = true) :
    (tagResponse tag).legal = true := by
  have holen : (BitVec.ofNat 4 tag.length).toNat = tag.length := toNat_ofNat_four (by omega)
  have hoch : (zeroFill Config.odig tag).length = 11 := zeroFill_length hlen
  have hfill : ∀ c ∈ (zeroFill Config.odig tag).drop tag.length, c = 0 := by
    intro c hc
    rw [zeroFill, List.drop_left] at hc
    exact List.eq_of_mem_replicate hc
  simp only [tagResponse, Response.legal, holen, hoch, zeroFill_take_length, h]
  simpa [Config.odig, hlen] using hfill

/-- LTC makes legal responses only. -/
theorem respond_legal (i : Instr) : (respond i).legal = true := by
  cases i with
  | encode low high =>
    rw [respond_encode]
    exact tagResponse_legal (tag_length_bounds low high).2 (canonicalTag_subst_b14 _)
  | decode tlen ch =>
    cases htotal : dTotal (ch.take tlen.toNat) with
    | error k =>
      obtain ⟨rfl, -⟩ := (dTotal_eq_error_iff _ k).mp htotal
      rw [respond_decode_of_error htotal]
      rfl
    | ok t =>
      have hlt := dTotal_lt htotal (presented_length_le tlen ch)
      obtain ⟨-, hhigh⟩ := splitTotal_fits hlt
      rw [respond_decode_of_ok htotal, pairResponse, Response.legal, hhigh, decide_eq_true_eq]
      omega

end Sys2Proof.Machine
end

section
/-!
Proofs about the interface (30_encoding.md R59, 70_reset_and_hazards.md): what one event takes and adds, what a reset
does, and what holds along every run.
-/

namespace Sys2Proof.Machine

/-! ### Taking from a queue -/

/-- The response that can be taken from a queue at an edge: the oldest, if it is due. -/
def dueResponses (q : List Pending) : List Response :=
  (q.take 1).filterMap fun e => if e.wait = 0 then some e.response else none

/-- What is left of a queue when the due response is taken. -/
def afterTaking : List Pending → List Pending
  | [] => []
  | e :: rest => if e.wait = 0 then rest else e :: rest

@[simp] theorem dueResponses_nil : dueResponses [] = [] := rfl

theorem dueResponses_cons (e : Pending) (q : List Pending) :
    dueResponses (e :: q) = if e.wait = 0 then [e.response] else [] := by
  unfold dueResponses
  split <;> simp [*]

/-- Nothing is lost, and the order is kept. -/
theorem dueResponses_append_afterTaking (q : List Pending) :
    dueResponses q ++ (afterTaking q).map Pending.response = q.map Pending.response := by
  cases q with
  | nil => rfl
  | cons e rest =>
    rw [dueResponses_cons, afterTaking]
    split <;> simp

@[simp] theorem map_response_map_tick (q : List Pending) :
    (q.map Pending.tick).map Pending.response = q.map Pending.response := by
  simp

theorem State.takeResponse_taken (s : State) :
    s.takeResponse.taken = s.taken ++ if s.pins.rspReady = true then dueResponses s.pending else [] := by
  obtain ⟨htake, hready | hwait⟩ | ⟨e, rest, hpending, hwait, hready, htake⟩ := s.takeResponse_cases
  · simp [htake, hready]
  · cases hpending : s.pending with
    | nil => simp [htake]
    | cons e rest => simp [htake, dueResponses_cons, hwait e rest hpending]
  · simp [htake, hready, hpending, dueResponses_cons, hwait]

theorem State.takeResponse_pending (s : State) :
    s.takeResponse.pending = if s.pins.rspReady = true then afterTaking s.pending else s.pending := by
  obtain ⟨htake, hready | hwait⟩ | ⟨e, rest, hpending, hwait, hready, htake⟩ := s.takeResponse_cases
  · simp [htake, hready]
  · cases hpending : s.pending with
    | nil => simp [htake, hpending, afterTaking]
    | cons e rest => simp [htake, hpending, afterTaking, hwait e rest hpending]
  · simp [htake, hready, hpending, afterTaking, hwait]

/-! ### What is accepted, and what stands on `RSP` -/

theorem State.accepts_of_rst {s : State} (h : s.pins.rst = true) : s.accepts = false := by
  simp [State.accepts, h]

/-- The queue entry of the request accepted at this edge, if any. -/
def State.incoming (s : State) : List Pending :=
  if s.accepts then [⟨respond (decodeReq s.acceptedWord), s.latencyOf (decodeReq s.acceptedWord)⟩] else []

theorem State.incoming_of_accepts {s : State} (h : s.accepts = true) :
    s.incoming = [⟨respond (decodeReq s.acceptedWord), s.latencyOf (decodeReq s.acceptedWord)⟩] := if_pos h

theorem State.incoming_of_not_accepts {s : State} (h : s.accepts = false) : s.incoming = [] := by
  simp [State.incoming, h]

theorem State.map_response_incoming (s : State) : s.incoming.map Pending.response = (acceptedNow s).map respond := by
  unfold State.incoming acceptedNow
  split <;> rfl

theorem map_respond_acceptedNow (s : State) :
    (acceptedNow s).map respond = if s.accepts = true then [respond (decodeReq s.acceptedWord)] else [] := by
  unfold acceptedNow
  split <;> rfl

theorem State.presented_of_rst {s : State} (h : s.pins.rst = true) : s.presented = none := by
  simp [State.presented, h]

/-- To a ready host is offered what is accepted. -/
theorem State.offered_eq_accepts {s : State} (h : s.pins.rspReady = true) : s.offered = s.accepts := by
  rw [Bool.eq_iff_iff, s.offered_iff]
  simp [h]

/-- To a ready host stands on `RSP` what is due in the queue that the edge's acceptance leaves. -/
theorem State.presented_toList_of_ready {s : State} (hrst : s.pins.rst = false) (hready : s.pins.rspReady = true) :
    s.presented.toList = dueResponses (s.pending ++ s.incoming) := by
  cases hpending : s.pending with
  | nil =>
    rw [State.presented, hpending, State.straight, State.offered_eq_accepts hready]
    cases haccepts : s.accepts with
    | false => simp [State.incoming_of_not_accepts haccepts]
    | true => simp [State.incoming_of_accepts haccepts, dueResponses_cons, hrst, apply_ite Option.toList]
  | cons e rest =>
    rw [State.presented, hpending]
    simp [hrst, dueResponses_cons, apply_ite Option.toList]

/-! ### One event -/

theorem step_of_rst {s : State} (h : s.pins.rst = true) : step s = .next s.keepPresenting.resetEdge := by
  simp [step, h]

theorem step_of_accepts {s : State} (h : s.accepts = true) :
    step s = .next (s.accept (decodeReq s.acceptedWord) (respond (decodeReq s.acceptedWord))).finishAccepted := by
  obtain ⟨-, -, hrst, -⟩ := s.accepts_iff.mp h
  simp [step, hrst, h, exec_eq_accept, closeEdge]

theorem step_of_not_accepts {s : State} (hrst : s.pins.rst = false) (h : s.accepts = false) :
    step s = .next s.keepPresenting.finishEdge := by
  simp [step, hrst, h]

/-- The rest of an edge, by the queue at the moment when the host may take a response. -/
theorem State.finishEdge_taken_pending (s : State) :
    s.finishEdge.taken = s.taken ++ (if s.pins.rspReady = true then dueResponses s.pending else []) ∧
      s.finishEdge.pending =
        (if s.pins.rspReady = true then afterTaking s.pending else s.pending).map Pending.tick := by
  rw [State.finishEdge_taken, State.finishEdge_pending, State.takeResponse_taken, State.takeResponse_pending]
  exact ⟨rfl, rfl⟩

/-- An edge without reset: the accepted request joins the queue, a ready host takes what is due, the others wait. -/
theorem step_edge {s : State} (hrst : s.pins.rst = false) :
    ∃ t, step s = .next t ∧ t.pins = s.pins ∧ t.holdOff = false ∧
      t.taken = s.taken ++ (if s.pins.rspReady = true then dueResponses (s.pending ++ s.incoming) else []) ∧
      t.pending = (if s.pins.rspReady = true then afterTaking (s.pending ++ s.incoming)
        else s.pending ++ s.incoming).map Pending.tick := by
  cases haccepts : s.accepts with
  | true =>
    rw [State.incoming_of_accepts haccepts]
    exact ⟨_, step_of_accepts haccepts, by simp, rfl, State.finishEdge_taken_pending (s.accept _ _)⟩
  | false =>
    rw [State.incoming_of_not_accepts haccepts, List.append_nil]
    exact ⟨_, step_of_not_accepts hrst haccepts, by simp, rfl, State.finishEdge_taken_pending s.keepPresenting⟩

/-- What one event does to the answers: it drops those in flight at a reset, adds the response to an accepted request,
and lets a ready host take what stands on `RSP`. -/
theorem step_answers (s : State) :
    ∃ t, step s = .next t ∧ t.pins = s.pins ∧
      t.taken = s.taken ++ (if s.pins.rspReady = true then s.presented.toList else []) ∧
      t.answered = (if s.pins.rst = true then s.taken else s.answered) ++ (acceptedNow s).map respond := by
  cases hrst : s.pins.rst with
  | false =>
    obtain ⟨t, hstep, hpins, -, htaken, hpending⟩ := step_edge hrst
    refine ⟨t, hstep, hpins, ?_⟩
    rw [State.answered, htaken, hpending, map_response_map_tick, ← State.map_response_incoming]
    cases hready : s.pins.rspReady with
    | false => simp [State.answered]
    | true =>
      simp only [if_true, State.presented_toList_of_ready hrst hready, List.append_assoc,
        dueResponses_append_afterTaking]
      simp [State.answered]
  | true =>
    refine ⟨_, step_of_rst hrst, by simp, ?_⟩
    simp [State.presented_of_rst hrst, acceptedNow, State.accepts_of_rst hrst]

theorem State.answered_of_pending_nil {s : State} (h : s.pending = []) : s.answered = s.taken := by
  simp [State.answered, h]

/-- What of the answers the host has not taken is in flight. -/
theorem State.append_pending_of_answered {t : State} {old new answers : List Response}
    (hanswered : t.answered = old ++ answers) (htaken : t.taken = old ++ new) :
    new ++ t.pending.map Pending.response = answers := by
  apply List.append_cancel_left (as := old)
  rw [← List.append_assoc, ← htaken]
  exact hanswered

/-- Settles O13: an event is a reset or an edge, and both give a next state. -/
theorem everyEventCompletes : Obligations.EveryEventCompletes := by
  intro s
  obtain ⟨t, hstep, -⟩ := step_answers s
  exact ⟨t, hstep⟩

/-- Settles O12: `exec` puts the response in the queue and the rest of the edge takes what is due there. -/
theorem stepRunsTheDecodedInstruction : Obligations.StepRunsTheDecodedInstruction := by
  rintro s i haccepts hseen rfl -
  have hstep := step_of_accepts haccepts
  rw [State.acceptedWord_of_seen_nil s hseen] at hstep
  exact ⟨_, _, exec_eq_accept _ s, hstep, rfl, by simp, by simp, rfl, rfl, (State.finishEdge_taken_pending _).1⟩

/-- Settles O16: what one event adds to the answers. -/
theorem oneResponseForEachAcceptedRequest : Obligations.OneResponseForEachAcceptedRequest := by
  intro s
  obtain ⟨t, hstep, -, -, hanswered⟩ := step_answers s
  exact ⟨s.accepts_iff, t, hstep, map_respond_acceptedNow s ▸ hanswered⟩

/-- Settles O22: the accepted word is one of those presented. -/
theorem changedRequestGetsTheAnswerToSomePresentedValue :
    Obligations.ChangedRequestGetsTheAnswerToSomePresentedValue := fun s haccepts =>
  ⟨s.acceptedWord, s.acceptedWord_mem, _, step_of_accepts haccepts, rfl, by simp⟩

/-! ### Reset (70_reset_and_hazards.md R160) -/

/-- Before the first edge after a reset LTC does not look at the request side. -/
theorem State.silent_of_holdOff {s : State} (hpending : s.pending = []) (hhold : s.holdOff = true) :
    s.presented = none ∧ s.accepts = false := by
  simp [State.presented, State.straight, State.offered, State.accepts, hpending, hhold]

theorem State.rspValid_of_presented_none {s : State} (h : s.presented = none) : s.rspValid = false := by
  simp [State.rspValid, h]

/-- Settles O14: a reset state of LTC is silent whatever the host drives. -/
theorem resetStateHoldsNothing : Obligations.ResetStateHoldsNothing := by
  refine ⟨rfl, rfl, fun p => ?_⟩
  obtain ⟨hpresented, haccepts⟩ := State.silent_of_holdOff (s := State.reset.drive p) rfl rfl
  exact ⟨State.rspValid_of_presented_none hpresented, by rw [State.rsp, hpresented]; rfl, haccepts⟩

/-- Settles O15: the reset leaves a silent LTC, and the first edge after it ends the hold. -/
theorem resetDropsRequestsInFlight : Obligations.ResetDropsRequestsInFlight := by
  intro s hrst
  refine ⟨State.accepts_of_rst hrst, State.rspValid_of_presented_none (State.presented_of_rst hrst), _,
    step_of_rst hrst, rfl, rfl, rfl, fun p hp => ?_⟩
  obtain ⟨hpresented, haccepts⟩ :=
    State.silent_of_holdOff (s := s.keepPresenting.resetEdge.drive p) rfl rfl
  refine ⟨haccepts, State.rspValid_of_presented_none hpresented, _, step_of_not_accepts hp haccepts, by simp,
    fun q hq hvalid => ?_⟩
  simp [State.accepts, hq, hvalid]

/-! ### The response side (30_encoding.md R59) -/

theorem State.rsp_of_presented {s : State} {r : Response} (h : s.presented = some r) :
    s.rspValid = true ∧ s.rsp = some r.pack := by
  simp [State.rspValid, State.rsp, h]

/-- What stands on `RSP` is the oldest of the responses in flight and of the request accepted at this edge. -/
theorem State.head_of_presented {s : State} {r : Response} (hready : s.pins.rspReady = true)
    (h : s.presented = some r) :
    (s.pending.map Pending.response ++ (acceptedNow s).map respond).head? = some r := by
  obtain ⟨-, ⟨e, rest, hpending, -, rfl⟩ | ⟨hpending, hoffered, -, rfl⟩⟩ := (s.presented_eq_some r).mp h
  · simp [hpending]
  · rw [State.offered_eq_accepts hready] at hoffered
    simp [hpending, map_respond_acceptedNow, hoffered]

/-- Settles O18: a ready host takes what stands on `RSP`. -/
theorem readyHostTakesTheOldestResponse : Obligations.ReadyHostTakesTheOldestResponse := by
  intro s
  obtain ⟨t, hstep, -, htaken, -⟩ := step_answers s
  constructor
  · intro hvalid hready
    obtain ⟨r, hr⟩ := s.rspValid_iff.mp hvalid
    refine ⟨r, t, (State.rsp_of_presented hr).2, State.head_of_presented hready hr, hstep, ?_⟩
    simpa [hready, hr] using htaken
  · intro hnot
    refine ⟨t, hstep, ?_⟩
    cases hpresented : s.presented with
    | none => simpa [hpresented] using htaken
    | some r =>
      have hready : s.pins.rspReady ≠ true := fun hready => hnot ⟨(State.rsp_of_presented hpresented).1, hready⟩
      simpa [hready] using htaken

theorem State.presented_of_pending_cons {s : State} (hrst : s.pins.rst = false) {e : Pending} {rest : List Pending}
    (hpending : s.pending = e :: rest) (hwait : e.wait = 0) : s.presented = some e.response :=
  (s.presented_eq_some _).mpr ⟨hrst, .inl ⟨e, rest, hpending, hwait, rfl⟩⟩

/-- The response to an accepted request holds while the host is not ready, whatever else it drives. -/
theorem presented_holds_of_in_flight {s t : State} {r : Response} (hr : s.presented = some r)
    (hready : s.pins.rspReady = false) (haccepted : s.pending ≠ [] ∨ s.accepts = true) (hstep : step s = .next t)
    {p : Pins} (hp : p.rst = false) : (t.drive p).presented = some r := by
  obtain ⟨hrst, hcases⟩ := (s.presented_eq_some r).mp hr
  obtain ⟨u, hstep', -, -, -, hleft⟩ := step_edge hrst
  obtain rfl : u = t := Host.Outcome.next.inj (hstep'.symm.trans hstep)
  obtain ⟨e, rest, hqueue, hwait, hresponse⟩ :
      ∃ e rest, s.pending ++ s.incoming = e :: rest ∧ e.wait = 0 ∧ e.response = r := by
    obtain ⟨e, rest, hpending, hwait, hresponse⟩ | ⟨hpending, -, hlat, hresponse⟩ := hcases
    · exact ⟨e, rest ++ s.incoming, by simp [hpending], hwait, hresponse⟩
    · have haccepts : s.accepts = true := haccepted.resolve_left (absurd hpending)
      exact ⟨_, [], by rw [hpending, State.incoming_of_accepts haccepts]; rfl, hlat, hresponse⟩
  have hpending : (u.drive p).pending = e.tick :: rest.map Pending.tick := by simp [hleft, hready, hqueue]
  rw [← hresponse, ← e.tick_response]
  exact State.presented_of_pending_cons hp hpending (by simp [hwait])

/-- A combinational LTC with nothing in flight shows the response to `REQ` exactly while a request is presented. -/
theorem State.presented_of_combinational {s : State} (h : s.combinational = true) (hrst : s.pins.rst = false)
    (hhold : s.holdOff = false) :
    s.presented = if s.pins.reqValid = true then some (respond (decodeReq s.pins.req)) else none := by
  obtain ⟨hpending, hport⟩ := s.combinational_iff.mp h
  simp [State.presented, State.straight, State.offered, h, hpending, hport, hrst, hhold]

/-- While a combinational LTC shows the response of a request that it does not accept, it stays combinational. -/
theorem step_combinational {s : State} (h : s.combinational = true) (hrst : s.pins.rst = false)
    (hhold : s.holdOff = false) (hvalid : s.pins.reqValid = true) (hready : s.pins.rspReady = false) :
    ∃ t, step s = .next t ∧ t.combinational = true ∧ t.holdOff = false := by
  obtain ⟨hpending, hport⟩ := s.combinational_iff.mp h
  have haccepts : s.accepts = false := by simp [State.accepts, State.reqReady, hport, hready]
  have hthrough : s.keepPresenting.finishEdge.port = .through := by
    simp [State.showsThrough, h, hvalid, hhold]
  refine ⟨_, step_of_not_accepts hrst haccepts, (State.combinational_iff _).mpr ⟨?_, hthrough⟩, rfl⟩
  simp [State.takeResponse_pending, hready, hpending]

/-- A request that is shown and not accepted is one of a combinational LTC. -/
theorem State.combinational_of_presented {s : State} {r : Response} (hr : s.presented = some r)
    (hpending : s.pending = []) (haccepts : s.accepts = false) :
    s.combinational = true ∧ s.pins.rst = false ∧ s.holdOff = false ∧ s.pins.reqValid = true := by
  obtain ⟨-, ⟨e, rest, hcons, -⟩ | ⟨-, hoffered, -⟩⟩ := (s.presented_eq_some r).mp hr
  · rw [hpending] at hcons
    cases hcons
  · obtain haccepts' | ⟨hport, -, hvalid, hrst, hhold⟩ := s.offered_iff.mp hoffered
    · rw [haccepts] at haccepts'
      cases haccepts'
    · exact ⟨s.combinational_iff.mpr ⟨hpending, hport⟩, hrst, hhold, hvalid⟩

/-- Every response holds while the host is not ready and goes on presenting the same request, ignored bits aside. -/
theorem presented_holds_of_same_request {s t : State} {r : Response} (hr : s.presented = some r)
    (hready : s.pins.rspReady = false) (hstep : step s = .next t) {p : Pins} (hp : p.rst = false)
    (hvalid : p.reqValid = true) (hreq : canonicalWord p.req = canonicalWord s.pins.req) :
    (t.drive p).presented = some r := by
  by_cases haccepted : s.pending ≠ [] ∨ s.accepts = true
  · exact presented_holds_of_in_flight hr hready haccepted hstep hp
  · obtain ⟨hpending, haccepts⟩ : s.pending = [] ∧ s.accepts = false := by simpa using haccepted
    obtain ⟨hcomb, hrst, hhold, hvalid'⟩ := State.combinational_of_presented hr hpending haccepts
    obtain ⟨u, hstep', hcomb', hhold'⟩ := step_combinational hcomb hrst hhold hvalid' hready
    obtain rfl : u = t := Host.Outcome.next.inj (hstep'.symm.trans hstep)
    rw [← hr, State.presented_of_combinational hcomb hrst hhold, if_pos hvalid',
      State.presented_of_combinational (s := u.drive p) hcomb' hp hhold', State.drive_pins, if_pos hvalid,
      respond_decodeReq_congr hreq]

/-- Settles O17: a response in flight or accepted at this edge stays in the queue, and a combinational LTC answers the
same request again. -/
theorem presentedResponseHoldsUntilTaken : Obligations.PresentedResponseHoldsUntilTaken := by
  intro s hvalid hready
  obtain ⟨r, hr⟩ := s.rspValid_iff.mp hvalid
  obtain ⟨-, hrsp⟩ := State.rsp_of_presented hr
  obtain ⟨t, hstep, -, htaken, -⟩ := step_answers s
  refine ⟨by simp [hrsp], t, hstep, by simpa [hready] using htaken, fun haccepted p hp => ?inFlight,
    fun p hp hvalid hreq => ?sameRequest⟩
  case inFlight =>
    rw [hrsp]
    exact State.rsp_of_presented (presented_holds_of_in_flight hr hready haccepted hstep hp)
  case sameRequest =>
    rw [hrsp]
    exact State.rsp_of_presented (presented_holds_of_same_request hr hready hstep hp hvalid hreq)

/-- Settles O53: `RSP` is the response to `REQ`, and it is taken exactly where its request is accepted. -/
theorem combinationalFormAnswersStraightThrough : Obligations.CombinationalFormAnswersStraightThrough := by
  intro s hport hpending hhold hrst
  have hcomb : s.combinational = true := s.combinational_iff.mpr ⟨hpending, hport⟩
  have hpresented := State.presented_of_combinational hcomb hrst hhold
  have haccepts : s.accepts = (s.pins.reqValid && s.pins.rspReady) := by
    simp [State.accepts, State.reqReady, hport, hrst, hhold]
  obtain ⟨t, hstep, -, htaken, hanswered⟩ := step_answers s
  have hmoved : (if s.pins.rspReady = true then s.presented.toList else []) = (acceptedNow s).map respond := by
    rw [map_respond_acceptedNow, haccepts, State.acceptedWord_of_combinational s hcomb, hpresented]
    cases s.pins.reqValid <;> cases s.pins.rspReady <;> rfl
  rw [hmoved] at htaken
  refine ⟨by simp [State.reqReady, hport], ?valid, fun hvalid => ?rsp, t, hstep, ?left, ?taken,
    fun hvalid hready => ?port⟩
  case valid => cases hvalid : s.pins.reqValid <;> simp [State.rspValid, hpresented, hvalid]
  case rsp => simp [State.rsp, hpresented, hvalid, respondWord]
  case taken =>
    rw [htaken, map_respond_acceptedNow, haccepts, State.acceptedWord_of_combinational s hcomb]
    simp only [Bool.and_eq_true]
  case left =>
    rw [hrst, if_neg Bool.false_ne_true, State.answered_of_pending_nil hpending] at hanswered
    simpa using State.append_pending_of_answered hanswered htaken
  case port =>
    obtain ⟨u, hstep', hcomb', -⟩ := step_combinational hcomb hrst hhold hvalid hready
    obtain rfl : u = t := Host.Outcome.next.inj (hstep'.symm.trans hstep)
    exact (u.combinational_iff.mp hcomb').2

/-- With nothing in flight the response to an accepted request stands on `RSP` where its latency is 0. -/
theorem State.presented_of_accepts {s : State} (haccepts : s.accepts = true) (hpending : s.pending = []) :
    s.presented = if s.latencyOf (decodeReq s.acceptedWord) = 0 then some (respond (decodeReq s.acceptedWord))
      else none := by
  obtain ⟨-, -, hrst, -⟩ := s.accepts_iff.mp haccepts
  have hoffered : s.offered = true := s.offered_iff.mpr (.inl haccepts)
  simp [State.presented, State.straight, hrst, hpending, hoffered]

/-- Settles O54: the one response there is has been taken, or it is in flight. -/
theorem zeroLatencyIsPresentedAtTheAcceptingEdge : Obligations.ZeroLatencyIsPresentedAtTheAcceptingEdge := by
  intro s haccepts hpending hseen
  obtain ⟨-, -, hrst, -⟩ := s.accepts_iff.mp haccepts
  obtain ⟨t, hstep, -, htaken, hanswered⟩ := step_answers s
  have hpresented := State.presented_of_accepts haccepts hpending
  have hvalid : s.rspValid = true ↔ s.latencyOf (decodeReq s.acceptedWord) = 0 := by
    simp [State.rspValid, hpresented]
  rw [map_respond_acceptedNow, if_pos haccepts, hrst, if_neg Bool.false_ne_true,
    State.answered_of_pending_nil hpending] at hanswered
  rw [State.acceptedWord_of_seen_nil s hseen] at hpresented hvalid hanswered
  refine ⟨hvalid, fun h => ?rsp, t, hstep, ?taken⟩
  case rsp => rw [State.rsp, hpresented, if_pos (hvalid.mp h)]; rfl
  case taken =>
    have hmoved : (if s.pins.rspReady = true then s.presented.toList else []) =
        if s.rspValid = true ∧ s.pins.rspReady = true then [respond (decodeReq s.pins.req)] else [] := by
      simp only [hpresented, hvalid, apply_ite Option.toList]
      cases s.pins.rspReady <;> simp
    rw [hmoved] at htaken
    have hleft := State.append_pending_of_answered hanswered htaken
    split
    next h =>
      rw [if_pos h] at htaken hleft
      exact ⟨htaken, by simpa using hleft⟩
    next h =>
      rw [if_neg h] at htaken hleft
      exact ⟨by simpa using htaken, hleft⟩

/-! ### Legal responses -/

/-- Settles O25: there is no response in flight or taken. -/
theorem resetStateMeetsTheInvariant : Obligations.ResetStateMeetsTheInvariant := by
  have hnone : State.reset.answered = [] := rfl
  simp [Obligations.ResetStateMeetsTheInvariant, State.Inv, hnone]

/-- Settles O24: an event adds the response to a request, which is legal, and drops others. -/
theorem everyStepKeepsResponsesLegal : Obligations.EveryStepKeepsResponsesLegal := by
  intro s t hinv hstep p r hr
  obtain ⟨u, hstep', -, -, hanswered⟩ := step_answers s
  obtain rfl : u = t := Host.Outcome.next.inj (hstep'.symm.trans hstep)
  rw [State.drive_answered, hanswered, List.mem_append] at hr
  obtain hold | hnew := hr
  · apply hinv r
    split at hold
    next => exact List.mem_append_left _ hold
    next => exact hold
  · obtain ⟨i, -, rfl⟩ := List.mem_map.mp hnew
    exact respond_legal i

/-! ### Runs (70_reset_and_hazards.md R164) -/

theorem runPins_cons {p : Pins} {s t : State} (h : step (s.drive p) = .next t) (ps : List Pins) :
    runPins (p :: ps) s = runPins ps t := by
  simp [runPins, clock, h]

theorem acceptedAlong_cons {p : Pins} {s t : State} (h : step (s.drive p) = .next t) (ps : List Pins) :
    acceptedAlong (p :: ps) s = acceptedNow (s.drive p) ++ acceptedAlong ps t := by
  simp [acceptedAlong, clock, h]

/-- Settles O19, by induction on the run: an edge without reset adds the responses to what it accepts. -/
theorem responsesComeInOrderOfAcceptance : Obligations.ResponsesComeInOrderOfAcceptance := by
  intro ps
  induction ps with
  | nil => exact fun s _ => ⟨s, rfl, by simp [acceptedAlong]⟩
  | cons p ps ih =>
    intro s hps
    obtain ⟨hp, hps⟩ := List.forall_mem_cons.mp hps
    obtain ⟨t, hstep, -, -, hanswered⟩ := step_answers (s.drive p)
    obtain ⟨u, hrun, hu⟩ := ih t hps
    refine ⟨u, (runPins_cons hstep ps).trans hrun, ?_⟩
    rw [hu, hanswered, acceptedAlong_cons hstep]
    simp [hp]

/-- One event moves responses from the queue to the host and drops the others or none. -/
theorem step_sublist (s : State) :
    ∃ t x, step s = .next t ∧ t.taken = s.taken ++ x ∧
      (x ++ t.pending.map Pending.response).Sublist
        (s.pending.map Pending.response ++ (acceptedNow s).map respond) := by
  obtain ⟨t, hstep, -, htaken, hanswered⟩ := step_answers s
  refine ⟨t, _, hstep, htaken, ?_⟩
  have hstart : (if s.pins.rst = true then s.taken else s.answered) =
      s.taken ++ if s.pins.rst = true then [] else s.pending.map Pending.response := by
    split <;> simp [State.answered]
  rw [hstart, List.append_assoc] at hanswered
  rw [State.append_pending_of_answered hanswered htaken]
  split <;> simp

/-- Settles O20, by induction on the run. -/
theorem resetsOnlyDropResponses : Obligations.ResetsOnlyDropResponses := by
  intro ps
  induction ps with
  | nil => exact fun s => ⟨s, _, rfl, rfl, by simp [acceptedAlong]⟩
  | cons p ps ih =>
    intro s
    obtain ⟨t, x, hstep, htaken, hsub⟩ := step_sublist (s.drive p)
    obtain ⟨u, l, hrun, hu, hl⟩ := ih t
    refine ⟨u, x ++ l, (runPins_cons hstep ps).trans hrun, by simp [hu, htaken], ?_⟩
    rw [acceptedAlong_cons hstep, List.map_append]
    refine (hl.append_left x).trans ?_
    rw [← List.append_assoc, ← List.append_assoc]
    exact hsub.append_right _

/-! ### Every request is answered (70_reset_and_hazards.md R163) -/

/-- The edges that a queue still needs when the host is ready at each: one for each response and one for each edge of
waiting. -/
def owed (q : List Pending) : Nat := (q.map fun e => e.wait + 1).sum

theorem owed_map_tick_le (q : List Pending) : owed (q.map Pending.tick) ≤ owed q := by
  induction q with
  | nil => exact le_rfl
  | cons e rest ih =>
    simp only [owed, List.map_cons, List.sum_cons, Pending.tick_wait] at ih ⊢
    omega

/-- An edge brings the queue nearer to its end: its head is taken or waits one edge less. -/
theorem owed_afterTaking_lt {q : List Pending} (h : q ≠ []) : owed ((afterTaking q).map Pending.tick) < owed q := by
  cases q with
  | nil => exact absurd rfl h
  | cons e rest =>
    have hrest := owed_map_tick_le rest
    have hcons : owed (e :: rest) = e.wait + 1 + owed rest := by simp [owed]
    rw [afterTaking]
    split
    next => omega
    next hwait =>
      have hticked : owed ((e :: rest).map Pending.tick) = e.wait - 1 + 1 + owed (rest.map Pending.tick) := by
        simp [owed]
      omega

theorem taking_append {q : List Pending} (h : q ≠ []) (new : List Pending) :
    dueResponses (q ++ new) = dueResponses q ∧ afterTaking (q ++ new) = afterTaking q ++ new := by
  cases q with
  | nil => exact absurd rfl h
  | cons e rest =>
    simp only [List.cons_append, dueResponses_cons, afterTaking]
    split <;> simp

/-- Along a run without reset whose host is always ready, the front of the queue is taken within the edges it needs,
whatever stands behind it. -/
theorem exists_runPins_taken (ps : List Pins) (s : State) (q new : List Pending)
    (hps : ∀ p ∈ ps, p.rst = false ∧ p.rspReady = true) (hpending : s.pending = q ++ new) (howed : owed q ≤ ps.length) :
    ∃ t, runPins ps s = .next t ∧ s.taken ++ q.map Pending.response <+: t.taken := by
  induction ps generalizing s q new with
  | nil =>
    obtain rfl : q = [] := by
      cases q with
      | nil => rfl
      | cons e rest => simp [owed] at howed
    exact ⟨s, rfl, by simp⟩
  | cons p ps ih =>
    obtain ⟨⟨hrst, hready⟩, hps⟩ := List.forall_mem_cons.mp hps
    obtain ⟨t, hstep, -, -, htaken, hleft⟩ := step_edge (s := s.drive p) hrst
    simp only [State.drive_pins, hready, if_true, State.drive_taken, State.drive_pending, hpending,
      List.append_assoc] at htaken hleft
    by_cases hq : q = []
    · obtain ⟨u, hrun, hu⟩ := ih t [] t.pending hps rfl (Nat.zero_le _)
      refine ⟨u, (runPins_cons hstep ps).trans hrun, List.IsPrefix.trans ?_ hu⟩
      simp [hq, htaken]
    · obtain ⟨hdue, hafter⟩ := taking_append hq (new ++ (s.drive p).incoming)
      have hlt := owed_afterTaking_lt hq
      obtain ⟨u, hrun, hu⟩ := ih t ((afterTaking q).map Pending.tick) _ hps
        (by rw [hleft, hafter, List.map_append]) (by simp at howed; omega)
      refine ⟨u, (runPins_cons hstep ps).trans hrun, ?_⟩
      rwa [htaken, hdue, map_response_map_tick, List.append_assoc, dueResponses_append_afterTaking] at hu

/-- Settles O21: the front of the queue is all that is in flight at the start. -/
theorem acceptedRequestsAreAnswered : Obligations.AcceptedRequestsAreAnswered := fun ps s hps howed =>
  exists_runPins_taken ps s s.pending [] hps (List.append_nil _).symm howed

/-! ### A held request (70_reset_and_hazards.md R162) -/

/-- What is remembered as presented after an event was presented at it or before. -/
theorem step_seen_subset {s t : State} (h : step s = .next t) : ∀ v ∈ t.seen, v ∈ s.pins.req :: s.seen := by
  have hkeep : ∀ v ∈ s.keepPresenting.seen, v ∈ s.pins.req :: s.seen := by
    intro v hv
    rw [State.keepPresenting_seen] at hv
    split at hv
    next => exact hv
    next => cases hv
  obtain ⟨-, hstep⟩ | ⟨-, -, hstep⟩ | ⟨-, -, hstep⟩ := step_cases s
  all_goals obtain rfl := Host.Outcome.next.inj (hstep.symm.trans h)
  · exact hkeep
  · simp
  · simp only [State.finishEdge_seen]
    exact hkeep

/-- Along a run at which only words with the response of `w` are presented, after only such words, every accepted
request has that response. -/
theorem respond_eq_of_mem_acceptedAlong (ps : List Pins) (s : State) (w : ReqWord)
    (hseen : ∀ v ∈ s.seen, canonicalWord v = canonicalWord w)
    (hps : ∀ p ∈ ps, canonicalWord p.req = canonicalWord w) :
    ∀ i ∈ acceptedAlong ps s, respond i = respond (decodeReq w) := by
  induction ps generalizing s with
  | nil => simp [acceptedAlong]
  | cons p ps ih =>
    obtain ⟨hp, hps⟩ := List.forall_mem_cons.mp hps
    have hpresented : ∀ v ∈ (s.drive p).pins.req :: (s.drive p).seen, canonicalWord v = canonicalWord w :=
      List.forall_mem_cons.mpr ⟨hp, hseen⟩
    obtain ⟨t, hstep, -⟩ := step_answers (s.drive p)
    intro i hi
    rw [acceptedAlong_cons hstep, List.mem_append] at hi
    obtain hnow | hlater := hi
    · unfold acceptedNow at hnow
      split at hnow
      next =>
        obtain rfl := List.mem_singleton.mp hnow
        exact respond_decodeReq_congr (hpresented _ (State.acceptedWord_mem _))
      next => cases hnow
    · exact ih t (fun v hv => hpresented v (step_seen_subset hstep v hv)) hps i hlater

/-- Settles O23: at the start no other word is remembered. -/
theorem heldRequestIsTheOneAnswered : Obligations.HeldRequestIsTheOneAnswered := fun ps s w hseen hps =>
  respond_eq_of_mem_acceptedAlong ps s w (by simp [hseen]) fun p hp => (hps p hp).2

end Sys2Proof.Machine
end

section
/-!
Proofs about the assembler (30_encoding.md R60 to R63): it reads back what the disassembler prints.
-/

namespace Sys2Proof.Machine

/-! ### Digits as characters -/

theorem char_toNat_ofNat {n : Nat} (h : n < 256) : (Char.ofNat n).toNat = n := by
  rw [Char.toNat_ofNat, if_pos (Or.inl (by omega))]

theorem decVal_ofNat {d : Nat} (h : d < 10) : decVal (Char.ofNat (48 + d)) = some d := by
  rw [decVal, char_toNat_ofNat (by omega), if_pos (by omega), Nat.add_sub_cancel_left]

theorem hexVal_hexDigit {d : Nat} (h : d < 16) : hexVal (hexDigit d) = some d := by
  unfold hexDigit hexVal
  split
  next hdec => rw [char_toNat_ofNat (by omega), if_pos (by omega), Nat.add_sub_cancel_left]
  next hdec =>
    rw [char_toNat_ofNat (by omega), if_neg (by omega), if_pos (by omega), Nat.add_sub_cancel_left]

/-! ### Numbers (R61) -/

/-- A text at which a decimal number ends: it goes on with no digit and no `x`. -/
def EndsNumber (rest : Text) : Prop := ∀ c ∈ rest.head?, decVal c = none ∧ c ≠ 'x'

/-- The digits of a number are read to their end, in Horner's form. -/
theorem readDigits_append {ds : List Nat} (hds : ∀ d ∈ ds, d < 10) {rest : Text} (hrest : EndsNumber rest) (acc : Nat) :
    readDigits 10 decVal (ds.map (fun d => Char.ofNat (48 + d)) ++ rest) acc =
      (ds.foldl (fun a d => a * 10 + d) acc, rest) := by
  induction ds generalizing acc with
  | nil =>
    cases rest with
    | nil => rfl
    | cons c cs => simp [readDigits, (hrest c rfl).1]
  | cons d ds ih =>
    obtain ⟨hd, hds⟩ := List.forall_mem_cons.mp hds
    simp only [List.map_cons, List.cons_append, readDigits, decVal_ofNat hd, ih hds, List.foldl_cons]

theorem foldl_digitsOf (n : Nat) : (digitsOf 10 n).foldl (fun a d => a * 10 + d) 0 = n := by
  obtain ⟨-, hnumber, -⟩ := isSpelling_digitsOf (b := 10) (by decide) n
  rw [Nat.ofDigits_eq_foldr, List.foldr_reverse] at hnumber
  have hstep : (fun a d : Nat => a * 10 + d) = fun a d => d + 10 * a := by
    funext a d
    ring
  rw [hstep]
  exact hnumber

/-- A text that begins with a digit, and not with `0x`, is read in decimal. -/
theorem readNumeral_of_decimal {c : Char} {cs : Text} {d : Nat} (hc : decVal c = some d) (hx : cs.head? ≠ some 'x') :
    readNumeral (c :: cs) = .ok (readDigits 10 decVal (c :: cs) 0) := by
  have hread : readNat 10 decVal (c :: cs) = .ok (readDigits 10 decVal (c :: cs) 0) := by simp only [readNat, hc]
  rw [← hread]
  unfold readNumeral
  split
  next heq =>
    obtain ⟨rfl, -⟩ := List.cons.inj heq
    cases hc
  next heq =>
    obtain ⟨-, rfl⟩ := List.cons.inj heq
    exact absurd rfl hx
  next => rfl

theorem decimal_eq_cons (n : Nat) : ∃ d ds, d < 10 ∧ (∀ e ∈ ds, e < 10) ∧ digitsOf 10 n = d :: ds := by
  obtain ⟨d, ds, heq⟩ := List.exists_cons_of_length_pos (digitsOf_length_pos (b := 10) (by decide) n)
  have hlt : ∀ e ∈ d :: ds, e < 10 := fun e he => digitsOf_lt 10 n e (by decide) (heq ▸ he)
  exact ⟨d, ds, (List.forall_mem_cons.mp hlt).1, (List.forall_mem_cons.mp hlt).2, heq⟩

/-- A printed number is read back. -/
theorem readNumber_decimal (v : Operand) {rest : Text} (hrest : EndsNumber rest) :
    readNumber (decimal v.toNat ++ rest) = .ok (v, rest) := by
  obtain ⟨d, ds, hd, hds, heq⟩ := decimal_eq_cons v.toNat
  have hx : (ds.map (fun d => Char.ofNat (48 + d)) ++ rest).head? ≠ some 'x' := by
    cases ds with
    | nil => exact fun hhead => (hrest 'x' hhead).2 rfl
    | cons e es =>
      intro hhead
      have hval := decVal_ofNat (hds e List.mem_cons_self)
      rw [show Char.ofNat (48 + e) = 'x' from Option.some.inj hhead] at hval
      cases hval
  have hnumeral : readNumeral (decimal v.toNat ++ rest) = .ok (v.toNat, rest) := by
    have hread := readDigits_append (fun e => digitsOf_lt 10 v.toNat e (by decide)) hrest 0
    rw [foldl_digitsOf, heq, List.map_cons, List.cons_append] at hread
    rw [decimal, heq, List.map_cons, List.cons_append, readNumeral_of_decimal (decVal_ofNat hd) hx, hread]
  rw [readNumber, hnumeral]
  simp [v.isLt]

/-- A printed number begins with no blank. -/
theorem skipBlanks_decimal (n : Nat) (rest : Text) : skipBlanks (decimal n ++ rest) = decimal n ++ rest := by
  obtain ⟨d, ds, hd, -, heq⟩ := decimal_eq_cons n
  have hblank : isBlank (Char.ofNat (48 + d)) = false := by
    interval_cases d <;> decide
  simp [decimal, heq, skipBlanks, hblank]

/-! ### Texts (R61, R63) -/

theorem consCode_ok (c : Byte) (cs : List Byte) (rest : Text) :
    consCode c.toNat (.ok (cs, rest)) = .ok (c :: cs, rest) := by
  simp [consCode]

/-- Neither the closing quote nor an escape begins with a plain character. -/
theorem readText_plain {c : Char} (h : plainCode c.toNat = true) (t : Text) :
    readText (c :: t) = consCode c.toNat (readText t) := by
  have hquote : c ≠ '\x22' := by rintro rfl; cases h
  have hslash : c ≠ '\\' := by rintro rfl; cases h
  rw [readText.eq_def]
  split
  all_goals simp_all

/-- One printed character is read back, whichever form it is printed in. -/
theorem readText_printCode (c : Byte) (t : Text) :
    readText (printCode c ++ t) = consCode c.toNat (readText t) := by
  unfold printCode
  split_ifs with hquote hslash hplain
  · rw [hquote]; rfl
  · rw [hslash]; rfl
  · have hcode := char_toNat_ofNat c.isLt
    rw [List.cons_append, List.nil_append, readText_plain (hcode.symm ▸ hplain), hcode]
  · have hhigh := hexVal_hexDigit (d := c.toNat / 16) (by omega)
    have hlow := hexVal_hexDigit (d := c.toNat % 16) (by omega)
    simp only [List.cons_append, List.nil_append, readText, hhigh, hlow, Nat.div_add_mod]

/-- A quoted text is read to its closing quote, the character 0x22. -/
theorem readText_flatMap_printCode (cs : List Byte) (rest : Text) :
    readText (cs.flatMap printCode ++ '\x22' :: rest) = .ok (cs, rest) := by
  induction cs with
  | nil => rfl
  | cons c cs ih => rw [List.flatMap_cons, List.append_assoc, readText_printCode, ih, consCode_ok]

/-! ### Lines (R60, R63) -/

theorem assembleLine_encode (rest : Text) : assembleLine ("ENCODE ".toList ++ rest) = encodeOperands rest := by
  rfl

theorem assembleLine_decode (rest : Text) : assembleLine ("DECODE ".toList ++ rest) = decodeOperands rest := by
  rfl

theorem encodeOperands_of_reads {t rest rest' rest'' : Text} {low high : Operand}
    (hlow : readNumber (skipBlanks t) = .ok (low, rest)) (hcomma : skipBlanks rest = ',' :: rest')
    (hhigh : readNumber (skipBlanks rest') = .ok (high, rest'')) :
    encodeOperands t = endLine [.encode low high] rest'' := by
  simp only [encodeOperands, hlow, hcomma, hhigh]

theorem encodeOperands_decimal (low high : Operand) :
    encodeOperands (decimal low.toNat ++ (", ".toList ++ decimal high.toNat)) = .ok [.encode low high] := by
  have hcomma : EndsNumber (", ".toList ++ decimal high.toNat) := by
    intro c hc
    obtain rfl : ',' = c := Option.some.inj hc
    decide
  have hblank : skipBlanks (' ' :: decimal high.toNat) = decimal high.toNat := by
    have h := skipBlanks_decimal high.toNat []
    rwa [List.append_nil] at h
  have hhigh : readNumber (decimal high.toNat) = .ok (high, []) := by
    have h := readNumber_decimal high (rest := []) nofun
    rwa [List.append_nil] at h
  have hlow : readNumber (skipBlanks (decimal low.toNat ++ (", ".toList ++ decimal high.toNat))) =
      .ok (low, ", ".toList ++ decimal high.toNat) := by
    rw [skipBlanks_decimal, readNumber_decimal low hcomma]
  exact encodeOperands_of_reads hlow rfl ((congrArg readNumber hblank).trans hhigh)

theorem decodeOperands_quoted {tag : List Byte} (h : tag.length ≤ 15) :
    decodeOperands (quoted tag) = .ok [tagRequest tag] := by
  have hquote : skipBlanks (quoted tag) = '\x22' :: (tag.flatMap printCode ++ ['\x22']) := rfl
  have hlen : tag.length ≤ Config.tagMax := h
  simp only [decodeOperands, hquote, readText_flatMap_printCode, if_pos hlen]
  rfl

/-- The canonical form of a request is the request of its tag. -/
theorem tagRequest_presentedTag {tlen : BitVec 4} {ch : List Byte} (hch : ch.length = 15) :
    tagRequest (presentedTag tlen ch) = (Instr.decode tlen ch).canonical := by
  rw [tagRequest_eq_zeroFill, canonical_decode, presentedTag_length hch, BitVec.ofNat_toNat, BitVec.setWidth_eq]
  rfl

theorem disassemble_encode (low high : Operand) :
    disassemble (.encode low high) =
      "ENCODE ".toList ++ (decimal low.toNat ++ (", ".toList ++ decimal high.toNat)) := by
  unfold disassemble
  simp only [List.append_assoc]

theorem disassemble_decode (tlen : BitVec 4) (ch : List Byte) :
    disassemble (.decode tlen ch) = "DECODE ".toList ++ quoted (presentedTag tlen ch) := by
  unfold disassemble
  rfl

/-- Disassembly prints a request without its ignored bits, so assembly gives the canonical one. -/
theorem assembleLine_disassemble {i : Instr} (h : i.WellFormed) : assembleLine (disassemble i) = .ok [i.canonical] := by
  cases i with
  | encode low high =>
    rw [disassemble_encode, assembleLine_encode, encodeOperands_decimal]
    rfl
  | decode tlen ch =>
    have hlen : (presentedTag tlen ch).length ≤ 15 := presented_length_le tlen ch
    rw [disassemble_decode, assembleLine_decode, decodeOperands_quoted hlen,
      tagRequest_presentedTag ((Instr.wellFormed_decode_iff tlen ch).mp h)]

/-- Settles O51: the assembler reads back the canonical form of the request, which has the request's response. -/
theorem assemblyOfDisassemblyIsCanonical : Obligations.AssemblyOfDisassemblyIsCanonical := fun w =>
  ⟨(decodeReq w).canonical, assembleLine_disassemble (decodeReq_wellFormed w), rfl,
    respond_canonical (decodeReq_wellFormed w)⟩

/-- Settles O52: both lines evaluate to the expansion, and its answers are the source's scenarios. -/
theorem selfTestExpands : Obligations.SelfTestExpands := by
  refine ⟨rfl, rfl, ?_⟩
  rw [programResult, List.map_cons, List.map_cons, List.map_nil, respond_decode_scenario, respond_encode_scenario]

end Sys2Proof.Machine
end
